-- ==== Sys2Proof/Word.lean ====
section
/-! DEFINITION. The words of the interface: one name for each port width of 10_state.md R25 and R26 and for the
operation word of 30_encoding.md R60. Every one is an unsigned integer whose bit 0 is the least significant (R10, R11). -/

namespace Sys2Proof

/-- The `high_bits` input (`hb`), 64 bits (00_scope.md R6). -/
abbrev HighBits := BitVec 64

/-- The `index` input (`idx`), 32 bits (00_scope.md R9). -/
abbrev Index := BitVec 32

/-- The `bank_count` input (`bc`), 32 bits, an unsigned binary number (30_encoding.md R63). -/
abbrev BankCount := BitVec 32

/-- The `sel` input, 2 bits (00_scope.md R9). -/
abbrev Select := BitVec 2

/-- The `hashed_index` output, 32 bits (10_state.md R26). -/
abbrev HashedIndex := BitVec 32

/-- The `fault_code` output, 2 bits (10_state.md R26). -/
abbrev FaultCode := BitVec 2

/-- The operation word `OPW = sel ++ bc`, 34 bits (30_encoding.md R60). -/
abbrev OpWord := BitVec 34

end Sys2Proof
end

