-- ==== Sys2Proof/Syntax.lean ====
section
/-! DEFINITION. The operations of the opcode map (30_encoding.md R64), the algorithms a `sel` value names (R62), the bank
counts the polynomial hash supports (00_scope.md R7, R8), and the source's call form (R72). -/

namespace Sys2Proof

/-- The six bank counts supported by the polynomial hash (00_scope.md R7). -/
inductive IpolyBanks where
  | b8 | b16 | b32 | b64 | b128 | b256
deriving DecidableEq, Repr

/-- The bank count `bc` itself. -/
def IpolyBanks.count : IpolyBanks → Nat
  | .b8 => 8
  | .b16 => 16
  | .b32 => 32
  | .b64 => 64
  | .b128 => 128
  | .b256 => 256

/-- The index width `n(bc)`, as 00_scope.md R8 lists it for the supported counts. -/
def IpolyBanks.width : IpolyBanks → Nat
  | .b8 => 3
  | .b16 => 4
  | .b32 => 5
  | .b64 => 6
  | .b128 => 7
  | .b256 => 8

/-- The eight operations of 30_encoding.md R64, one constructor per row of the opcode table. The operands `hb` and `idx`
are ports, not part of the encoding (R60, R61); only BITWISE has a free field, its bank count. -/
inductive Instr where
  /-- `sel = 0`, `bc = 8` (41_ipoly.md R93). -/
  | ipoly8
  /-- `sel = 0`, `bc = 16` (41_ipoly.md R94). -/
  | ipoly16
  /-- `sel = 0`, `bc = 32` (41_ipoly.md R95). -/
  | ipoly32
  /-- `sel = 0`, `bc = 64` (41_ipoly.md R96). -/
  | ipoly64
  /-- `sel = 0`, `bc = 128` (41_ipoly.md R97). -/
  | ipoly128
  /-- `sel = 0`, `bc = 256` (41_ipoly.md R98). -/
  | ipoly256
  /-- `sel = 1`, any `bc` (42_bitwise.md R114). -/
  | bitwise (bankCount : BankCount)
  /-- `sel = 2`, `bc = 32` (43_pae.md R135). -/
  | pae32
deriving DecidableEq, Repr

/-- The three algorithms (30_encoding.md R62). The fourth value of `sel` is reserved and names none (R69). -/
inductive Algorithm where
  | ipoly | bitwise | pae
deriving DecidableEq, Repr

/-- The source's call form without its operands: which function is called with which bank count (30_encoding.md R72).
Unlike `Instr`, it can name an unsupported bank count. -/
structure Call where
  algorithm : Algorithm
  bankCount : BankCount
deriving DecidableEq, Repr

end Sys2Proof
end

