-- ==== Sys2Proof/Machine/State.lean ====
section
/-! DEFINITION. The state of a run as plain data. The hardware holds no architectural state (10_state.md R20 to R24); what
the spec names is the ports of one request (R25), the ports of its outputs (R26), and the run's bookkeeping: the fault mark
(60_exceptions.md R165), the observation and the caller's remaining requests (R179). -/

namespace Sys2Proof.Machine

/-- A fault of an evaluation, with the offending input (60_exceptions.md R163, R164). The evaluation that raises it drives
`fault_valid` and `fault_code` and sets the run's fault mark; the NEXT step of the run stops with it (R165). -/
inductive Fault where
  /-- Raised by the decoder when the selected hash does not support `bc` (60_exceptions.md R161). Safe: the spec names the
  fault and ends the run with it. -/
  | unsupportedBankCount (bc : BankCount)
  /-- Raised by the decoder when `sel = 3` (60_exceptions.md R162). Safe: the spec names the fault and ends the run with
  it. -/
  | unsupportedSelect (sel : Select)
deriving DecidableEq, Repr

/-- A reason the model has no meaning for an instruction. -/
inductive Refusal where
  /-- An instruction whose meaning is not written yet. Raised by no arm: all eight operations are modelled. Safe: the
  model stops. -/
  | notModelled (mnemonic : String)
deriving DecidableEq, Repr

/-- A request `(sel, bc, hb, idx)` (30_encoding.md R60, 10_state.md R25). -/
structure Request where
  sel : Select
  bankCount : BankCount
  highBits : HighBits
  index : Index
deriving DecidableEq, Repr

/-- The state of a run. -/
structure State where
  /-- Input port `sel` of the request presented last (10_state.md R25). -/
  sel : Select
  /-- Input port `bank_count` of that request (10_state.md R25). -/
  bankCount : BankCount
  /-- Input port `high_bits` of that request (10_state.md R25). -/
  highBits : HighBits
  /-- Input port `index` of that request (10_state.md R25). -/
  index : Index
  /-- Output port `hashed_index`; `none` is "the model gives it no value", after a fault (10_state.md R26, 60_exceptions.md
  R164). -/
  hashedIndex : Option HashedIndex
  /-- Output port `fault_valid`, one bit (10_state.md R26). -/
  faultValid : Bool
  /-- Output port `fault_code` (10_state.md R26, 60_exceptions.md R163). -/
  faultCode : FaultCode
  /-- The run's fault mark, with the fault that set it (60_exceptions.md R165): the caller's abort, no register. -/
  faultMark : Option Fault
  /-- The results observed so far, `v1` first (60_exceptions.md R179). -/
  trace : List HashedIndex
  /-- The model's own field: the requests the caller has still to present, the next one first (60_exceptions.md R179). -/
  pending : List Request
deriving DecidableEq, Repr

/-- The start of a run: nothing requested, nothing observed, the fault mark clear (60_exceptions.md R165, R179;
70_reset_and_hazards.md R190). The input ports hold the BITWISE request of zeros, DESIGN CHOICE (log 7): the spec gives the
caller's ports no value. The outputs are the function of those inputs, as R190 says. -/
def State.reset : State where
  sel := 1#2
  bankCount := 0#32
  highBits := 0#64
  index := 0#32
  hashedIndex := some 0#32
  faultValid := false
  faultCode := 0#2
  faultMark := none
  trace := []
  pending := []

end Sys2Proof.Machine
end

