-- ==== Sys2Proof/Machine/Operands.lean ====
section
/-! DEFINITION. Operand assembly (30_encoding.md R71): every operand is a port, read whole or by its low bits. There is no
immediate, no sign extension, no scaling and no addressing mode (R61, 20_memory.md R42, R51). -/

namespace Sys2Proof.Machine

/-- `b = idx[n-1:0]`: the index bits at or above `n` are not read (30_encoding.md R71, 41_ipoly.md R91, 43_pae.md R133). -/
def rawIndex (n : Nat) (idx : Index) : BitVec n :=
  idx.setWidth n

/-- `m = zext_64((bc - 1) mod 2^32)`, the mask of the bitwise hash (30_encoding.md R71, 42_bitwise.md R111). -/
def bankMask (bc : BankCount) : BitVec 64 :=
  (bc - 1#32).setWidth 64

end Sys2Proof.Machine
end

