-- ==== Sys2Proof/WellFormed.lean ====
section
/-! DEFINITION. Which terms are well formed. Every `Instr` is: its constructors name only supported bank counts, and BITWISE
is legal for every 32-bit `bc` (30_encoding.md R64, R68). A call can pair an algorithm with a bank count it does not
support (R66, R67), and the check below refuses it. -/

namespace Sys2Proof

/-- Every instruction is well formed: the types of the fields are the whole condition (30_encoding.md R64, R68). -/
def Instr.wf : Instr → Bool
  | .ipoly8 => true
  | .ipoly16 => true
  | .ipoly32 => true
  | .ipoly64 => true
  | .ipoly128 => true
  | .ipoly256 => true
  | .bitwise _ => true
  | .pae32 => true

/-- The bank counts each algorithm supports (00_scope.md R7): six for the polynomial hash, 32 alone for PAE, every one for
the bitwise hash, which has no explicit validation (42_bitwise.md R113). -/
def Algorithm.supports : Algorithm → BankCount → Bool
  | .ipoly, bc => bc == 8#32 || bc == 16#32 || bc == 32#32 || bc == 64#32 || bc == 128#32 || bc == 256#32
  | .bitwise, _ => true
  | .pae, bc => bc == 32#32

/-- A call is well formed when its algorithm supports its bank count (70_reset_and_hazards.md R192). -/
def Call.wf (c : Call) : Bool :=
  c.algorithm.supports c.bankCount

end Sys2Proof
end

