-- ==== Sys2Proof/Decode.lean ====
section
/-! DEFINITION. The operation word, its decoder and its encoder (30_encoding.md R60, R64 to R70). Decoding is total on all
2^34 words: it names one operation or one fault. -/

namespace Sys2Proof

open Machine (Fault)

/-- `OPW = sel ++ bc`, so `OPW[33:32] = sel` and `OPW[31:0] = bc` (30_encoding.md R60). -/
def operationWord (sel : Select) (bc : BankCount) : OpWord :=
  sel ++ bc

/-- `OPW[33:32]` (30_encoding.md R60). -/
def opSelect (w : OpWord) : Select :=
  w.extractLsb' 32 2

/-- `OPW[31:0]` (30_encoding.md R60). -/
def opBankCount (w : OpWord) : BankCount :=
  w.extractLsb' 0 32

/-- The polynomial hash's operations by bank count; every other count is illegal (30_encoding.md R65, R66). -/
def decodeIpoly (bc : BankCount) : Except Fault Instr :=
  if bc = 8#32 then .ok .ipoly8
  else if bc = 16#32 then .ok .ipoly16
  else if bc = 32#32 then .ok .ipoly32
  else if bc = 64#32 then .ok .ipoly64
  else if bc = 128#32 then .ok .ipoly128
  else if bc = 256#32 then .ok .ipoly256
  else .error (.unsupportedBankCount bc)

/-- PAE supports 32 banks only (30_encoding.md R65, R67). -/
def decodePae (bc : BankCount) : Except Fault Instr :=
  if bc = 32#32 then .ok .pae32 else .error (.unsupportedBankCount bc)

/-- The decoder: `sel` first, then the selected hash's own bank-count check and no other (30_encoding.md R65,
60_exceptions.md R167). -/
def decode (w : OpWord) : Except Fault Instr :=
  if opSelect w = 0#2 then decodeIpoly (opBankCount w)
  else if opSelect w = 1#2 then .ok (.bitwise (opBankCount w))
  else if opSelect w = 2#2 then decodePae (opBankCount w)
  else .error (.unsupportedSelect (opSelect w))

/-- The word of an instruction, from the `match` column of 30_encoding.md R64; BITWISE has `bc` in its free bits. -/
def encode : Instr → OpWord
  | .ipoly8 => 0x000000008#34
  | .ipoly16 => 0x000000010#34
  | .ipoly32 => 0x000000020#34
  | .ipoly64 => 0x000000040#34
  | .ipoly128 => 0x000000080#34
  | .ipoly256 => 0x000000100#34
  | .bitwise bc => 0x100000000#34 ||| bc.setWidth 34
  | .pae32 => 0x200000020#34

/-- One row of the opcode map: a word is that operation exactly when `w & mask = pattern` (30_encoding.md R64). -/
structure OpcodeRow where
  mnemonic : String
  pattern : OpWord
  mask : OpWord
deriving DecidableEq, Repr

/-- The opcode map of 30_encoding.md R64, row by row. -/
def opcodeTable : List OpcodeRow :=
  [ ⟨"IPOLY8", 0x000000008#34, 0x3FFFFFFFF#34⟩,
    ⟨"IPOLY16", 0x000000010#34, 0x3FFFFFFFF#34⟩,
    ⟨"IPOLY32", 0x000000020#34, 0x3FFFFFFFF#34⟩,
    ⟨"IPOLY64", 0x000000040#34, 0x3FFFFFFFF#34⟩,
    ⟨"IPOLY128", 0x000000080#34, 0x3FFFFFFFF#34⟩,
    ⟨"IPOLY256", 0x000000100#34, 0x3FFFFFFFF#34⟩,
    ⟨"BITWISE", 0x100000000#34, 0x300000000#34⟩,
    ⟨"PAE32", 0x200000020#34, 0x3FFFFFFFF#34⟩ ]

/-- The mnemonic of an instruction (30_encoding.md R64). -/
def mnemonicOf : Instr → String
  | .ipoly8 => "IPOLY8"
  | .ipoly16 => "IPOLY16"
  | .ipoly32 => "IPOLY32"
  | .ipoly64 => "IPOLY64"
  | .ipoly128 => "IPOLY128"
  | .ipoly256 => "IPOLY256"
  | .bitwise _ => "BITWISE"
  | .pae32 => "PAE32"

/-- The value of `sel` that selects an algorithm (30_encoding.md R62). -/
def selectOf : Algorithm → Select
  | .ipoly => 0#2
  | .bitwise => 1#2
  | .pae => 2#2

/-- The operation word of a call (30_encoding.md R60, R62, R72). -/
def callWord (c : Call) : OpWord :=
  operationWord (selectOf c.algorithm) c.bankCount

/-- The instruction read from the opcode-table number `w`. An operation word has 34 bits whatever whole number of bytes it
is counted in, so a number of 35 bits or more is none (30_encoding.md R70; log 9). -/
def decodeTableWord (_nbits w : Nat) : Option Instr :=
  if w < 2 ^ 34 then (decode (BitVec.ofNat 34 w)).toOption else none

end Sys2Proof
end

