-- ==== Sys2Proof/Machine/Flags.lean ====
section
/-! DEFINITION. The fault indication. There are no flags or condition codes (10_state.md R23); an evaluation reports a fault
on `fault_valid` and `fault_code` only (60_exceptions.md R163, R169). -/

namespace Sys2Proof.Machine

/-- The code of a fault (60_exceptions.md R163). Code 0 is "none" and code 3 is reserved, never driven. -/
def faultCodeOf : Fault → FaultCode
  | .unsupportedBankCount _ => 1#2
  | .unsupportedSelect _ => 2#2

/-- What `fault_valid` shows for the outcome of an evaluation (44_selector.md R150). -/
def validBitOf : Except Fault HashedIndex → Bool
  | .ok _ => false
  | .error _ => true

/-- What `fault_code` shows for the outcome of an evaluation (44_selector.md R150, 60_exceptions.md R163). -/
def codeOf : Except Fault HashedIndex → FaultCode
  | .ok _ => 0#2
  | .error f => faultCodeOf f

/-- What `hashed_index` shows: the result, and no value after a fault (44_selector.md R150, 60_exceptions.md R164). -/
def resultOf : Except Fault HashedIndex → Option HashedIndex
  | .ok v => some v
  | .error _ => none

/-- What an evaluation leaves for the fault mark: the fault it raised, if any (60_exceptions.md R165). -/
def faultOf : Except Fault HashedIndex → Option Fault
  | .ok _ => none
  | .error f => some f

end Sys2Proof.Machine
end

