-- ==== Sys2Proof/Machine/Ops.lean ====
section
/-! DEFINITION. The named operations over the ports and the run's bookkeeping: presenting a request, completing an
evaluation, and taking a fault. There is no memory and no register to read or write (20_memory.md R40, 10_state.md R21).
A fault saves nothing and transfers control nowhere (60_exceptions.md R169), and there is NO return from one (R170), so no
operation of that name stands here. -/

namespace Sys2Proof.Machine

/-- The operation word of a request (30_encoding.md R60). -/
def Request.opw (r : Request) : OpWord :=
  operationWord r.sel r.bankCount

/-- The request on the input ports (10_state.md R25). -/
def State.request (s : State) : Request :=
  { sel := s.sel, bankCount := s.bankCount, highBits := s.highBits, index := s.index }

/-- The operation word on the input ports (30_encoding.md R60). -/
def State.opw (s : State) : OpWord :=
  operationWord s.sel s.bankCount

/-- The caller presents `r`: all four inputs change together (20_memory.md R44), and `rest` is what it will present
later. -/
def State.present (s : State) (r : Request) (rest : List Request) : State :=
  { s with sel := r.sel, bankCount := r.bankCount, highBits := r.highBits, index := r.index, pending := rest }

/-- Taking the next request from the caller: the state with it on the input ports, or `none` when the caller has no more
(60_exceptions.md R179). -/
def State.takeRequest (s : State) : Option State :=
  match s.pending with
  | [] => none
  | r :: rest => some (s.present r rest)

/-- The end of a successful evaluation with result `v` (44_selector.md R146, R150): `fault_valid <- 0; fault_code <- 0;
hashed_index <- v`, and the run observes `v` (60_exceptions.md R179). -/
def State.complete (s : State) (v : HashedIndex) : State :=
  { s with hashedIndex := some v, faultValid := false, faultCode := 0#2, trace := s.trace ++ [v] }

/-- TAKING A FAULT (44_selector.md R146, R150; 60_exceptions.md R163 to R165, R169): `fault_valid <- 1`, `fault_code <-
code(f)`, no value on `hashed_index`, and the fault mark set unless an earlier fault set it. Nothing is saved, no mode
changes, nothing is observed, and control goes nowhere. -/
def State.takeFault (s : State) (f : Fault) : State :=
  { s with hashedIndex := none, faultValid := true, faultCode := faultCodeOf f, faultMark := s.faultMark.or (some f) }

/-- The caller's queue with the operation word of `sel` and `bc` as its next request. The operands are those the caller
would present next, or, with nothing pending, those on the ports. -/
def State.queueWord (s : State) (sel : Select) (bc : BankCount) : List Request :=
  match s.pending with
  | [] => [{ sel := sel, bankCount := bc, highBits := s.highBits, index := s.index }]
  | r :: rest => { r with sel := sel, bankCount := bc } :: rest

end Sys2Proof.Machine
end

