-- ==== Sys2Proof/Machine/Bitwise.lean ====
section
/-! DEFINITION. The bitwise XOR hash, address_hash_xor (42_bitwise.md). -/

namespace Sys2Proof.Machine

/-- `BITWISE(bc, hb, idx) = idx ⊕ trunc_32(hb & m)` (42_bitwise.md R111). The whole 32-bit index enters the XOR. -/
def bitwiseHash (bc : BankCount) (hb : HighBits) (idx : Index) : HashedIndex :=
  idx ^^^ (hb &&& bankMask bc).setWidth 32

/-- BITWISE (42_bitwise.md R114): legal for every `bc`, and it never raises a fault (R113). -/
def execBitwise (bc : BankCount) (s : State) : Host.Outcome State Fault Refusal :=
  .next (s.complete (bitwiseHash bc s.highBits s.index))

end Sys2Proof.Machine
end

