-- ==== Sys2Proof/Machine/Gf2.lean ====
section
/-! DEFINITION. GF(2) linear maps by row masks (00_scope.md R11, R12): parity, the XOR of a subset of bits, a matrix applied
to a vector, the identity matrix, and the common form of the two matrix hashes (41_ipoly.md R81, 43_pae.md R126). -/

namespace Sys2Proof.Machine

/-- The XOR of the first `n` values of a bit sequence, the sum modulo 2: a set bit flips the sum of the others
(`xorBelow_succ`). -/
def xorBelow (f : Nat → Bool) : Nat → Bool
  | 0 => false
  | n + 1 =>
    match f n with
    | true => !(xorBelow f n)
    | false => xorBelow f n

/-- `parity(v)`, the XOR of all bits of `v` (00_scope.md R11). -/
def parity {n : Nat} (v : BitVec n) : Bool :=
  xorBelow v.getLsbD n

/-- The XOR of the bits of `x` that the row mask `m` selects: output bit `k` of a map is this for `M[k]` (00_scope.md R12).
It is `parity(x & m)` (`Laws.maskParity_eq_parity`). -/
def maskParity {n : Nat} (x m : BitVec n) : Bool :=
  xorBelow (fun i => x.getLsbD i && m.getLsbD i) n

/-- A GF(2) linear map from `m` bits to `n` bits, by its row masks (00_scope.md R12). -/
def applyRows {n m : Nat} (rows : Fin n → BitVec m) (x : BitVec m) : BitVec n :=
  BitVec.ofFnLE fun k => maskParity x (rows k)

/-- The identity matrix: row `k` is `mask_n({k})` (00_scope.md R12). -/
def identityRows (n : Nat) : Fin n → BitVec n :=
  fun k => BitVec.twoPow n k

/-- The common form of the matrix hashes: output bit `k` is `parity(hb & A[k]) ⊕ parity(b & B[k])` with `b = idx[n-1:0]`,
and the `n` bits are zero-extended to 32 (41_ipoly.md R81, 43_pae.md R126, 20_memory.md R42). -/
def matrixHash {n : Nat} (high : Fin n → BitVec 64) (low : Fin n → BitVec n) (hb : HighBits) (b : BitVec n) : HashedIndex :=
  (BitVec.ofFnLE fun k => maskParity hb (high k) ^^ maskParity b (low k)).setWidth 32

/-- An output bit written as the source code writes it: the XOR of a list of numbered bits of `v`, repeats included
(43_pae.md R130). -/
def xorTerms {n : Nat} (v : BitVec n) : List Nat → Bool
  | [] => false
  | j :: js => v.getLsbD j ^^ xorTerms v js

/-- The row mask of such a list: a term listed twice cancels (43_pae.md R130). -/
def termsMask (n : Nat) : List Nat → BitVec n
  | [] => 0#n
  | j :: js => BitVec.twoPow n j ^^^ termsMask n js

/-! The identity matrix is invertible: Config needs it, so that the open index parts range over a type that has an element. -/

theorem xorBelow_succ (f : Nat → Bool) (n : Nat) : xorBelow f (n + 1) = (xorBelow f n ^^ f n) := by
  rw [xorBelow]
  cases f n <;> simp

theorem xorBelow_congr {f g : Nat → Bool} (n : Nat) (h : ∀ i, i < n → f i = g i) : xorBelow f n = xorBelow g n := by
  induction n with
  | zero => rfl
  | succ n ih => rw [xorBelow_succ, xorBelow_succ, ih fun i hi => h i (by omega), h n (by omega)]

/-- A sequence with one bit set at most, at position `k`. -/
theorem xorBelow_single (f : Nat → Bool) (k n : Nat) :
    xorBelow (fun i => f i && decide (k = i)) n = (decide (k < n) && f k) := by
  induction n with
  | zero => simp [xorBelow]
  | succ n ih =>
    rw [xorBelow_succ, ih]
    rcases Nat.lt_trichotomy k n with h | h | h
    · simp [h, Nat.lt_succ_of_lt h, Nat.ne_of_lt h]
    · subst h; simp
    · simp [Nat.not_lt_of_gt h, show ¬ k < n + 1 by omega, show k ≠ n by omega]

/-- A mask of one bit selects that bit. -/
theorem maskParity_twoPow {n : Nat} (x : BitVec n) (k : Nat) : maskParity x (BitVec.twoPow n k) = x.getLsbD k := by
  rw [maskParity, xorBelow_congr (g := fun i => x.getLsbD i && decide (k = i)) n fun i hi => by
    simp [hi, eq_comm], xorBelow_single]
  by_cases h : k < n
  · simp [h]
  · simp [h, BitVec.getLsbD_of_ge x k (by omega)]

theorem getLsbD_applyRows {n m : Nat} (rows : Fin n → BitVec m) (x : BitVec m) (k : Nat) :
    (applyRows rows x).getLsbD k = if h : k < n then maskParity x (rows ⟨k, h⟩) else false :=
  BitVec.getLsbD_ofFnLE _ _

@[simp] theorem getElem_applyRows {n m : Nat} (rows : Fin n → BitVec m) (x : BitVec m) (k : Nat) (hk : k < n) :
    (applyRows rows x)[k] = maskParity x (rows ⟨k, hk⟩) := by
  rw [← BitVec.getLsbD_eq_getElem, getLsbD_applyRows, dif_pos hk]

/-- The identity matrix is the identity map (00_scope.md R12). -/
@[simp] theorem applyRows_identityRows {n : Nat} (x : BitVec n) : applyRows (identityRows n) x = x := by
  refine BitVec.eq_of_getLsbD_eq fun i hi => ?_
  rw [getLsbD_applyRows, dif_pos hi, identityRows, maskParity_twoPow]

theorem identityRows_bijective (n : Nat) : Function.Bijective (applyRows (identityRows n)) := by
  rw [show applyRows (identityRows n) = id from funext applyRows_identityRows]
  exact Function.bijective_id

end Sys2Proof.Machine
end

