-- ==== Sys2Proof/Config.lean ====
section
/-! DEFINITION. The design constants of 10_state.md R27: the two tables that the source does not give. Each open part is an
OPAQUE constant with no body, so a claim proved about the machine holds for every admissible table (92_eei_decisions.md
D3, D4; 41_ipoly.md R82, R83; 43_pae.md R127). There is no other configuration (10_state.md R32). -/

namespace Sys2Proof

/-- An `n`-by-`n` matrix over GF(2), by its row masks, that is invertible: the map is a bijection on `n`-bit values
(00_scope.md R12). It is the constraint of 41_ipoly.md R87 and 43_pae.md R129. The default values only show that such a
matrix exists. -/
structure InvertibleRows (n : Nat) where
  rows : Fin n → BitVec n := Machine.identityRows n
  bijective : Function.Bijective (Machine.applyRows rows) := by exact Machine.identityRows_bijective _
deriving Inhabited

namespace Config

/-- The high parts `IA_bc[k]`, 64 bits each: nothing of them is known (41_ipoly.md R82; 91_not_in_source.md N1, N13). -/
opaque ipolyHigh : (b : IpolyBanks) → Fin b.width → BitVec 64

/-- The index part `IB_32`: invertible (41_ipoly.md R87) and nothing else (R85). -/
opaque ipolyIndex32 : InvertibleRows 5

/-- The index part `IB_256`: invertible (41_ipoly.md R87) and nothing else (R86, 90_conflicts.md C2). -/
opaque ipolyIndex256 : InvertibleRows 8

/-- The high parts `PA[k]`, 64 bits each: nothing of them is known (43_pae.md R127). -/
opaque paeHigh : Fin 5 → BitVec 64

/-- The index part `PB`: invertible (43_pae.md R129) and nothing else (R128, 90_conflicts.md C7). -/
opaque paeIndex : InvertibleRows 5

/-- The index parts `IB_bc`: the identity for 8, 16, 64 and 128 banks (41_ipoly.md R84), open for 32 and 256. -/
def ipolyIndex : (b : IpolyBanks) → Fin b.width → BitVec b.width
  | .b8 => Machine.identityRows 3
  | .b16 => Machine.identityRows 4
  | .b32 => ipolyIndex32.rows
  | .b64 => Machine.identityRows 6
  | .b128 => Machine.identityRows 7
  | .b256 => ipolyIndex256.rows

/-- `ipolyTable`: for each supported bank count, the pairs `(IA_bc[k], IB_bc[k])` (41_ipoly.md R82). -/
def ipolyTable (b : IpolyBanks) (k : Fin b.width) : BitVec 64 × BitVec b.width :=
  (ipolyHigh b k, ipolyIndex b k)

/-- `paeTable`: the five pairs `(PA[k], PB[k])` (43_pae.md R127). -/
def paeTable (k : Fin 5) : BitVec 64 × BitVec 5 :=
  (paeHigh k, paeIndex.rows k)

end Config

end Sys2Proof
end

