-- ==== Sys2Proof/Machine/Ipoly.lean ====
section
/-! DEFINITION. The IPOLY hash family, address_hash_ipoly (41_ipoly.md): one map per supported bank count, and the six
operations. Each writes its result and nothing else, and raises no exception (section 3 of the file). -/

namespace Sys2Proof.Machine

/-- `IPOLY(bc, hb, idx)` (41_ipoly.md R81): output bit `k` is `parity(hb & IA_bc[k]) ⊕ parity(b & IB_bc[k])` with
`b = idx[n-1:0]`, zero-extended to 32 bits. -/
def ipolyHash (banks : IpolyBanks) (hb : HighBits) (idx : Index) : HashedIndex :=
  matrixHash (fun k => (Config.ipolyTable banks k).1) (fun k => (Config.ipolyTable banks k).2) hb (rawIndex banks.width idx)

/-- IPOLY8 (41_ipoly.md R93). -/
def execIpoly8 (s : State) : Host.Outcome State Fault Refusal :=
  .next (s.complete (ipolyHash .b8 s.highBits s.index))

/-- IPOLY16 (41_ipoly.md R94). -/
def execIpoly16 (s : State) : Host.Outcome State Fault Refusal :=
  .next (s.complete (ipolyHash .b16 s.highBits s.index))

/-- IPOLY32 (41_ipoly.md R95). -/
def execIpoly32 (s : State) : Host.Outcome State Fault Refusal :=
  .next (s.complete (ipolyHash .b32 s.highBits s.index))

/-- IPOLY64 (41_ipoly.md R96). -/
def execIpoly64 (s : State) : Host.Outcome State Fault Refusal :=
  .next (s.complete (ipolyHash .b64 s.highBits s.index))

/-- IPOLY128 (41_ipoly.md R97). -/
def execIpoly128 (s : State) : Host.Outcome State Fault Refusal :=
  .next (s.complete (ipolyHash .b128 s.highBits s.index))

/-- IPOLY256 (41_ipoly.md R98). -/
def execIpoly256 (s : State) : Host.Outcome State Fault Refusal :=
  .next (s.complete (ipolyHash .b256 s.highBits s.index))

end Sys2Proof.Machine
end

