-- ==== Sys2Proof/Machine/Pae.lean ====
section
/-! DEFINITION. The page-address-entropy hash, address_hash_pae (43_pae.md): 32 banks only. -/

namespace Sys2Proof.Machine

/-- `PAE(hb, idx)` (43_pae.md R126): output bit `k` is `parity(hb & PA[k]) ⊕ parity(b & PB[k])` with `b = idx[4:0]`,
zero-extended to 32 bits. -/
def paeHash (hb : HighBits) (idx : Index) : HashedIndex :=
  matrixHash (fun k => (Config.paeTable k).1) (fun k => (Config.paeTable k).2) hb (rawIndex 5 idx)

/-- PAE32 (43_pae.md R135). -/
def execPae32 (s : State) : Host.Outcome State Fault Refusal :=
  .next (s.complete (paeHash s.highBits s.index))

end Sys2Proof.Machine
end

