-- ==== Sys2Proof/Machine/Selector.lean ====
section
/-! DEFINITION. The hash selector, hash_selector (44_selector.md): one evaluation of the whole hardware as a function of its
request and the design tables alone (R146), and a run of requests as the caller observes it (60_exceptions.md R179). -/

namespace Sys2Proof.Machine

/-- The hash an operation names, applied to the operand ports: exactly one of the three (44_selector.md R145, R146). -/
def hashOf : Instr → HighBits → Index → HashedIndex
  | .ipoly8, hb, idx => ipolyHash .b8 hb idx
  | .ipoly16, hb, idx => ipolyHash .b16 hb idx
  | .ipoly32, hb, idx => ipolyHash .b32 hb idx
  | .ipoly64, hb, idx => ipolyHash .b64 hb idx
  | .ipoly128, hb, idx => ipolyHash .b128 hb idx
  | .ipoly256, hb, idx => ipolyHash .b256 hb idx
  | .bitwise bc, hb, idx => bitwiseHash bc hb idx
  | .pae32, hb, idx => paeHash hb idx

/-- `Eval(sel, bc, hb, idx)` (44_selector.md R146, 00_scope.md R13): a result, or a fault that has no result. -/
def eval (r : Request) : Except Fault HashedIndex :=
  match decode r.opw with
  | .ok i => .ok (hashOf i r.highBits r.index)
  | .error f => .error f

/-- The observation of a run (60_exceptions.md R179): the results up to the first fault, and that fault; the requests after
it are not evaluated. -/
def observe : List Request → List HashedIndex × Option Fault
  | [] => ([], none)
  | r :: rest =>
    match eval r with
    | .ok v => (v :: (observe rest).1, (observe rest).2)
    | .error f => ([], some f)

end Sys2Proof.Machine
end

