-- ==== Sys2Proof/Machine/Dispatch.lean ====
section
/-! DEFINITION. One arm per operation of the opcode table. -/

namespace Sys2Proof.Machine

def exec (i : Instr) (s : State) : Host.Outcome State Fault Refusal :=
  match i with
  | .ipoly8 => Sys2Proof.Machine.execIpoly8 s
  | .ipoly16 => Sys2Proof.Machine.execIpoly16 s
  | .ipoly32 => Sys2Proof.Machine.execIpoly32 s
  | .ipoly64 => Sys2Proof.Machine.execIpoly64 s
  | .ipoly128 => Sys2Proof.Machine.execIpoly128 s
  | .ipoly256 => Sys2Proof.Machine.execIpoly256 s
  | .bitwise bankCount => Sys2Proof.Machine.execBitwise bankCount s
  | .pae32 => Sys2Proof.Machine.execPae32 s

end Sys2Proof.Machine
end

