-- ==== Sys2Proof/Machine/Step.lean ====
section
/-! DEFINITION. One step of a run: the caller presents its next request and the hardware evaluates it, atomically
(20_memory.md R44, 60_exceptions.md R179). -/

namespace Sys2Proof.Machine

/-- One step. A run whose fault mark is set takes no further evaluation and stops with that fault (60_exceptions.md R165). A
run with no request left has ended successfully, and the step changes nothing (R179; log 6). Otherwise the next request
goes to the input ports and its operation word is decoded: the operation is executed, or the fault is taken (44_selector.md
R146). -/
def step (s : State) : Host.Outcome State Fault Refusal :=
  match s.faultMark with
  | some f => .fault f
  | none =>
    match s.takeRequest with
    | none => .next s
    | some s' =>
      match decode s'.opw with
      | .ok i => exec i s'
      | .error f => .next (s'.takeFault f)

/-- The opcode-table number `w` placed as the operation word of the caller's next request, in a run whose fault mark is
clear (log 8). The word has 34 bits whatever `nbits` counts (30_encoding.md R60). -/
def State.withFetchWord (s : State) (_nbits w : Nat) : State :=
  { s with
    pending := s.queueWord (opSelect (BitVec.ofNat 34 w)) (opBankCount (BitVec.ofNat 34 w))
    faultMark := none }

end Sys2Proof.Machine
end

