-- ==== Sys2Proof/Machine/Assembler.lean ====
section
/-! DEFINITION. The assembler text of a request (30_encoding.md R72, R73): the source's call form and the mnemonic form,
the numeric literals, and what each form denotes. -/

namespace Sys2Proof.Machine

/-- An operand as written: a number, or `none` for `*`, "any value" (30_encoding.md R73). -/
abbrev Operand := Option Nat

/-- A request as text, in one of its two forms (30_encoding.md R72). -/
inductive RequestText where
  /-- `ipoly_hash(high_bits, index, bank_count)` and the other two functions. -/
  | call (algorithm : Algorithm) (highBits index bankCount : Operand)
  /-- `<mnemonic> hb, idx`, and `BITWISE hb, idx, bc` whose bank count is the instruction's field, so never `*` (log 12). -/
  | mnemonic (i : Instr) (highBits index : Operand)
deriving DecidableEq, Repr

/-- A port value fits an operand: any value for `*`, else the number itself. -/
def Operand.admits {w : Nat} (o : Operand) (v : BitVec w) : Bool :=
  match o with
  | none => true
  | some n => n == v.toNat

/-- The requests a text denotes (30_encoding.md R72): the named function or operation, with operands the text admits. -/
def RequestText.denotes (t : RequestText) (r : Request) : Bool :=
  match t with
  | .call a hb idx bc => r.sel == selectOf a && bc.admits r.bankCount && hb.admits r.highBits && idx.admits r.index
  | .mnemonic i hb idx => r.opw == encode i && hb.admits r.highBits && idx.admits r.index

/-- The digit a character stands for, in any base up to 16. -/
def digitOf (c : Char) : Option Nat :=
  if '0' ≤ c ∧ c ≤ '9' then some (c.toNat - 48)
  else if 'a' ≤ c ∧ c ≤ 'f' then some (c.toNat - 87)
  else if 'A' ≤ c ∧ c ≤ 'F' then some (c.toNat - 55)
  else none

/-- Digits of one base, most significant first, continuing from `acc`. -/
def readDigits (base acc : Nat) : List Char → Option Nat
  | [] => some acc
  | c :: cs =>
    match digitOf c with
    | some d => if d < base then readDigits base (acc * base + d) cs else none
    | none => none

/-- A numeric literal: `0b` binary, `0x` hexadecimal, else decimal (30_encoding.md R73). -/
def readLiteral : List Char → Option Nat
  | [] => none
  | '0' :: 'b' :: c :: cs => readDigits 2 0 (c :: cs)
  | '0' :: 'x' :: c :: cs => readDigits 16 0 (c :: cs)
  | c :: cs => readDigits 10 0 (c :: cs)

/-- An operand as written: `*` or a literal (30_encoding.md R73). -/
def readOperand (cs : List Char) : Option Operand :=
  if cs = ['*'] then some none else (readLiteral cs).map some

/-- The tokens of a request's text. -/
inductive Token where
  | word (cs : List Char)
  | lparen
  | rparen
  | comma
deriving DecidableEq, Repr

/-- The word read so far, as a token, before what follows it. -/
def endWord (acc : List Char) (rest : List Token) : List Token :=
  if acc = [] then rest else .word acc.reverse :: rest

/-- Words are separated by spaces, commas and parentheses; `acc` is the current word, reversed. -/
def tokens (acc : List Char) : List Char → List Token
  | [] => endWord acc []
  | ' ' :: cs => endWord acc (tokens [] cs)
  | ',' :: cs => endWord acc (.comma :: tokens [] cs)
  | '(' :: cs => endWord acc (.lparen :: tokens [] cs)
  | ')' :: cs => endWord acc (.rparen :: tokens [] cs)
  | c :: cs => tokens (c :: acc) cs

/-- The function names of the call form (30_encoding.md R72). -/
def algorithmNamed (cs : List Char) : Option Algorithm :=
  if cs = "ipoly_hash".toList then some .ipoly
  else if cs = "bitwise_hash".toList then some .bitwise
  else if cs = "pae_hash".toList then some .pae
  else none

/-- The mnemonics whose bank count is fixed (30_encoding.md R64, R72). -/
def instrNamed (cs : List Char) : Option Instr :=
  if cs = "IPOLY8".toList then some .ipoly8
  else if cs = "IPOLY16".toList then some .ipoly16
  else if cs = "IPOLY32".toList then some .ipoly32
  else if cs = "IPOLY64".toList then some .ipoly64
  else if cs = "IPOLY128".toList then some .ipoly128
  else if cs = "IPOLY256".toList then some .ipoly256
  else if cs = "PAE32".toList then some .pae32
  else none

/-- Reading a request's text in either form (30_encoding.md R72). A text of another shape is none. DESIGN CHOICE (log 12):
`*` as the bank count is read in a call, `bitwise_hash(h, i, *)`, and is none in the mnemonic form, `BITWISE hb, idx, *`,
whose bank count is the instruction's own field; a BITWISE bank count that is no 32-bit number is none too. R73 shows `*`
for the two operands of a call only. -/
def readRequest (text : String) : Option RequestText :=
  match tokens [] text.toList with
  | [.word f, .lparen, .word hb, .comma, .word idx, .comma, .word bc, .rparen] => do
    return .call (← algorithmNamed f) (← readOperand hb) (← readOperand idx) (← readOperand bc)
  | [.word m, .word hb, .comma, .word idx] => do
    return .mnemonic (← instrNamed m) (← readOperand hb) (← readOperand idx)
  | [.word m, .word hb, .comma, .word idx, .comma, .word bc] => do
    let n ← readLiteral bc
    if m = "BITWISE".toList ∧ n < 2 ^ 32 then
      return .mnemonic (.bitwise (BitVec.ofNat 32 n)) (← readOperand hb) (← readOperand idx)
    else
      none
  | _ => none

end Sys2Proof.Machine
end

