-- ==== Sys2Proof/Safety.lean ====
section
/-! DEFINITION. What counts as the end of a run, the invariant every step keeps, and the premises about tables and callers
that a claim may take and the model does not build in. -/

namespace Sys2Proof

open Machine

namespace Machine

/-- The run has ended successfully: every request evaluated, no fault (60_exceptions.md R179). -/
def State.EndedSuccessfully (s : State) : Prop :=
  s.pending = [] ∧ s.faultMark = none

/-- The run has ended faulted (60_exceptions.md R165, R179). -/
def State.EndedFaulted (s : State) : Prop :=
  s.faultMark ≠ none

/-- The outputs are the function of the inputs at all times (70_reset_and_hazards.md R190, 20_memory.md R48), and the fault
mark is set exactly when the request on the ports faulted, with its fault (60_exceptions.md R165). -/
structure State.Inv (s : State) : Prop where
  result : s.hashedIndex = resultOf (eval s.request)
  valid : s.faultValid = validBitOf (eval s.request)
  code : s.faultCode = codeOf (eval s.request)
  mark : s.faultMark = faultOf (eval s.request)

end Machine

namespace Safety

/-- The named property `IPOLY32_CROSS : IB_32 ≠ identity` (41_ipoly.md R85): a premise, no constraint on the table. -/
def Ipoly32Cross : Prop :=
  Config.ipolyIndex .b32 ≠ identityRows 5

/-- The named property `PAE_CROSS : PB ≠ identity` (43_pae.md R128): a premise, no constraint on the table. -/
def PaeCross : Prop :=
  Config.paeIndex.rows ≠ identityRows 5

/-- The caller's precondition for a meaningful BITWISE index (42_bitwise.md R112, 60_exceptions.md R180). -/
def PowerOfTwoBanks (bc : BankCount) : Prop :=
  ∃ n, n ≤ 31 ∧ bc = BitVec.twoPow 32 n

/-- A request whose algorithm and bank count are supported together (70_reset_and_hazards.md R192). -/
def Supported (r : Request) : Prop :=
  ∃ a : Algorithm, r.sel = selectOf a ∧ a.supports r.bankCount = true

/-- A request as the caller is to configure it: a supported pair, with a power of two for a meaningful BITWISE index
(70_reset_and_hazards.md R192). -/
def Configured (r : Request) : Prop :=
  Supported r ∧ (r.sel = selectOf .bitwise → PowerOfTwoBanks r.bankCount)

/-- The caller keeps `sel` and `bc` constant over a run (44_selector.md R148, 60_exceptions.md R180). -/
def ConstantConfiguration (requests : List Request) : Prop :=
  ∀ r ∈ requests, ∀ r' ∈ requests, r.opw = r'.opw

end Safety

end Sys2Proof
end

