-- ==== Sys2Proof/Certificates/Slice0/Obligations.lean ====
section
/-! DEFINITION. The statements for the provers, in the order of OBLIGATIONS.json. A docstring names the rule a statement
formalises; where a statement rests on a choice (the model's, or the spec's own decision or inference) it says so. The
abbreviations of the first section spell out next states in full, independent of the model's own operations. -/

namespace Sys2Proof.Claims

open Sys2Proof.Machine

/-- `s` after a successful evaluation with result `v`: the three outputs and the observation, and nothing else, differ. -/
def evaluated (s : State) (v : HashedIndex) : State :=
  { s with hashedIndex := some v, faultValid := false, faultCode := 0#2, trace := s.trace ++ [v] }

/-- `s` with the request `r` on its input ports and `rest` still to come: nothing else differs. -/
def presented (s : State) (r : Request) (rest : List Request) : State :=
  { s with sel := r.sel, bankCount := r.bankCount, highBits := r.highBits, index := r.index, pending := rest }

/-- `s` after an evaluation that raised `f` with the code `code`: no result, and the fault mark set; nothing else differs.
-/
def faulted (s : State) (f : Fault) (code : FaultCode) : State :=
  { s with hashedIndex := none, faultValid := true, faultCode := code, faultMark := some f }

/-- The run of `s` is not marked and its next request is `r`. -/
def Ready (s : State) (r : Request) (rest : List Request) : Prop :=
  s.faultMark = none ∧ s.pending = r :: rest

/-- The bank counts of 00_scope.md R7 for the polynomial hash, as a list of numbers. -/
def ipolyCounts : List Nat := [8, 16, 32, 64, 128, 256]

/-- `i` completes in every state, and its result has `n` bits, each given by `bit` from the operand ports, and zeros
above. -/
def CompletesWithBits (i : Instr) (n : Nat) (bit : Fin n → HighBits → Index → Bool) : Prop :=
  ∀ s : State, ∃ v : HashedIndex, exec i s = .next (evaluated s v) ∧
    (∀ k : Fin n, v.getLsbD k = bit k s.highBits s.index) ∧ ∀ k, n ≤ k → v.getLsbD k = false

/-- For one value of `hb`, `i` gives one result exactly for the indices of one class modulo `m`: it reads the index modulo
`m`, and the `m` classes have `m` distinct results. -/
def SeparatesIndexMod (i : Instr) (m : Nat) : Prop :=
  ∀ (s t : State) (v w : HashedIndex), s.highBits = t.highBits → exec i s = .next (evaluated s v) →
    exec i t = .next (evaluated t w) → (v = w ↔ s.index.toNat % m = t.index.toNat % m)

/-- With `hb = 0` the result of `i` is the index modulo `m`. -/
def ZeroHighBitsGiveIndexMod (i : Instr) (m : Nat) : Prop :=
  ∀ s : State, s.highBits = 0#64 → exec i s = .next (evaluated s (BitVec.ofNat 32 (s.index.toNat % m)))

/-- With the operands `hb` and `idx`, `i` gives the result `v`. -/
def Gives (i : Instr) (hb : HighBits) (idx : Index) (v : HashedIndex) : Prop :=
  ∀ s : State, s.highBits = hb → s.index = idx → exec i s = .next (evaluated s v)

end Sys2Proof.Claims

open Sys2Proof Sys2Proof.Machine Sys2Proof.Claims

/-! ## The operation word -/

/-- 30_encoding.md section 2: words of its table, written out, decode to its eight operations. -/
def Obligations.OpcodeWordsDecode : Prop :=
  decode 0x000000008#34 = .ok .ipoly8 ∧ decode 0x000000010#34 = .ok .ipoly16 ∧ decode 0x000000020#34 = .ok .ipoly32 ∧
    decode 0x000000040#34 = .ok .ipoly64 ∧ decode 0x000000080#34 = .ok .ipoly128 ∧
    decode 0x000000100#34 = .ok .ipoly256 ∧ decode 0x100000007#34 = .ok (.bitwise 7#32) ∧
    decode 0x1FFFFFFFF#34 = .ok (.bitwise 0xFFFFFFFF#32) ∧ decode 0x200000020#34 = .ok .pae32

/-- Decode and encode agree both ways: a word decodes to an instruction exactly when it is that instruction's word, for
every instruction and every bank count BITWISE admits. -/
def Obligations.DecodeInvertsEncode : Prop :=
  ∀ (w : OpWord) (i : Instr), decode w = .ok i ↔ i.wf = true ∧ w = encode i

/-- 30_encoding.md section 2, the match and mask columns: a request whose `OPW & mask = match` is that operation, and any
two rows are disjoint. -/
def Obligations.OpcodeRowsMatchDecode : Prop :=
  opcodeTable = [⟨"IPOLY8", 0x000000008#34, 0x3FFFFFFFF#34⟩, ⟨"IPOLY16", 0x000000010#34, 0x3FFFFFFFF#34⟩,
    ⟨"IPOLY32", 0x000000020#34, 0x3FFFFFFFF#34⟩, ⟨"IPOLY64", 0x000000040#34, 0x3FFFFFFFF#34⟩,
    ⟨"IPOLY128", 0x000000080#34, 0x3FFFFFFFF#34⟩, ⟨"IPOLY256", 0x000000100#34, 0x3FFFFFFFF#34⟩,
    ⟨"BITWISE", 0x100000000#34, 0x300000000#34⟩, ⟨"PAE32", 0x200000020#34, 0x3FFFFFFFF#34⟩] ∧
  (∀ (w : OpWord), ∀ row ∈ opcodeTable, w &&& row.mask = row.pattern ↔ ∃ i, decode w = .ok i ∧ mnemonicOf i = row.mnemonic) ∧
  ∀ (w : OpWord), ∀ row ∈ opcodeTable, ∀ row' ∈ opcodeTable, w &&& row.mask = row.pattern → w &&& row'.mask = row'.pattern →
    row = row'

/-- 30_encoding.md R66 and R67: the illegal words of `sel = 0` and of `sel = 2` raise UnsupportedBankCount. Every word of
`sel = 1` is legal. -/
def Obligations.IllegalWordsRaiseUnsupportedBankCount : Prop :=
  (∀ bc : BankCount, bc.toNat ∉ ipolyCounts → decode (0#2 ++ bc) = .error (.unsupportedBankCount bc)) ∧
    (∀ bc : BankCount, bc ≠ 32#32 → decode (2#2 ++ bc) = .error (.unsupportedBankCount bc)) ∧
    ∀ bc : BankCount, decode (1#2 ++ bc) = .ok (.bitwise bc)

/-- 30_encoding.md R60 (the layout is the spec's own choice, D12): `OPW[33:32] = sel` and `OPW[31:0] = bc`, and the word
is those two fields and nothing else. -/
def Obligations.OperationWordIsItsFields : Prop :=
  (∀ (sel : Select) (bc : BankCount), (operationWord sel bc).extractLsb 33 32 = sel ∧ (operationWord sel bc).extractLsb 31 0 = bc) ∧
    ∀ w : OpWord, operationWord (opSelect w) (opBankCount w) = w

/-! ## One step -/

/-- A step runs the decoded operation: with an unmarked run and a next request whose word decodes to `i`, the step is
`exec i` with that request on the input ports and taken from the caller's list. `i` is then well formed. (The caller's
list is the model's, log 3.) -/
def Obligations.StepRunsTheDecodedOperation : Prop :=
  ∀ (s : State) (r : Request) (rest : List Request) (i : Instr), Ready s r rest → decode (r.sel ++ r.bankCount) = .ok i →
    i.wf = true ∧ step s = exec i (presented s r rest)

/-- Taking a fault (44_selector.md R150, 60_exceptions.md R163 to R165 and R169, the spec's own decisions D8 and D9; the
two steps are log 4, `none` for no result is log 5, the mark in State is log 13): a faulting request drives `fault_valid =
1`, its fault's code and no result, sets the mark, and changes nothing else but the input ports; the step after it stops
with that fault. -/
def Obligations.FaultingRequestSetsMarkThenStops : Prop :=
  ∀ (s : State) (r : Request) (rest : List Request) (f : Fault), Ready s r rest → decode (r.sel ++ r.bankCount) = .error f →
    ∃ t, step s = .next t ∧ step t = .fault f ∧
      ((f = .unsupportedBankCount r.bankCount ∧ t = faulted (presented s r rest) f 1#2) ∨
        (f = .unsupportedSelect r.sel ∧ t = faulted (presented s r rest) f 2#2))

/-- 60_exceptions.md R161 (and 41_ipoly.md R92, 43_pae.md R131): UnsupportedBankCount is raised in exactly two cases, it
carries the offending count, and there is then no result (in State, a fault raised is the mark, and no result is `none`:
log 4, 5 and 13). -/
def Obligations.UnsupportedBankCountExactCases : Prop :=
  ∀ (s : State) (r : Request) (rest : List Request), Ready s r rest →
    ∃ t, step s = .next t ∧
      ((r.sel = 0#2 ∧ r.bankCount.toNat ∉ ipolyCounts ∨ r.sel = 2#2 ∧ r.bankCount ≠ 32#32) ↔ ∃ bc, t.faultMark = some (.unsupportedBankCount bc)) ∧
      ((∃ bc, t.faultMark = some (.unsupportedBankCount bc)) →
        t.faultMark = some (.unsupportedBankCount r.bankCount) ∧ t.hashedIndex = none ∧ t.faultValid = true ∧ t.trace = s.trace)

/-- 60_exceptions.md R162 and R167, 44_selector.md R151 (the spec's own decisions D7 and D10; `none` for no result is log
5, the mark in State is log 13): `sel = 3` raises UnsupportedSelect whatever `bc` is, no other `sel` does, and no hash is
evaluated. -/
def Obligations.ReservedSelectFaultsBeforeBankCount : Prop :=
  ∀ (s : State) (r : Request) (rest : List Request), Ready s r rest →
    ∃ t, step s = .next t ∧ (r.sel = 3#2 ↔ ∃ sel, t.faultMark = some (.unsupportedSelect sel)) ∧
      (r.sel = 3#2 → t = faulted (presented s r rest) (.unsupportedSelect 3#2) 2#2)

/-- 60_exceptions.md R166: no other error exists; no value of `hb` or `idx` is an error, and neither is any `bc` under
BITWISE. -/
def Obligations.NoOperandIsAnError : Prop :=
  ∀ (s s' : State) (r : Request) (hb : HighBits) (idx : Index) (rest rest' : List Request), Ready s r rest →
    Ready s' { r with highBits := hb, index := idx } rest' →
    ∃ t t', step s = .next t ∧ step s' = .next t' ∧ t.faultMark = t'.faultMark ∧ (r.sel = 1#2 → t.faultMark = none) ∧
      (t.faultMark = none ∨ t.faultMark = some (.unsupportedBankCount r.bankCount) ∨ t.faultMark = some (.unsupportedSelect r.sel))

/-- 42_bitwise.md R113: BITWISE never raises a fault, for any `bc`, `hb` or `idx`. -/
def Obligations.BitwiseNeverFaults : Prop :=
  ∀ (s : State) (r : Request) (rest : List Request), Ready s r rest → r.sel = 1#2 →
    ∃ v, step s = .next (evaluated (presented s r rest) v)

/-- 44_selector.md R145 to R147 (the encoding of `sel` is the spec's own choice, D7): `sel` selects exactly one hash, and
only that hash's bank-count check applies. -/
def Obligations.SelectorEvaluatesTheSelectedHash : Prop :=
  ∀ (s : State) (r : Request) (rest : List Request), Ready s r rest →
    (r.sel = 0#2 → ∀ b : IpolyBanks, r.bankCount.toNat = b.count →
      step s = .next (evaluated (presented s r rest) (ipolyHash b r.highBits r.index))) ∧
    (r.sel = 1#2 → step s = .next (evaluated (presented s r rest) (bitwiseHash r.bankCount r.highBits r.index))) ∧
    (r.sel = 2#2 → r.bankCount.toNat = 32 → step s = .next (evaluated (presented s r rest) (paeHash r.highBits r.index)))

/-- 20_memory.md section 3: the result of every evaluation is the function of its own request, whatever other evaluations
run before or after it. Two runs in any states that evaluate one request show one result or one fault. After a fault the
clause on `hashed_index` is the model's choice, log 5: it says only that neither state has a result. -/
def Obligations.OutputsDependOnOwnRequestOnly : Prop :=
  ∀ (s s' : State) (r : Request) (rest rest' : List Request), Ready s r rest → Ready s' r rest' →
    ∃ t t', step s = .next t ∧ step s' = .next t' ∧ t.hashedIndex = t'.hashedIndex ∧ t.faultValid = t'.faultValid ∧
      t.faultCode = t'.faultCode ∧ t.faultMark = t'.faultMark ∧
      (t.faultValid = false → ∃ v, t.hashedIndex = some v ∧ t.trace = s.trace ++ [v] ∧ t'.trace = s'.trace ++ [v])

/-- 20_memory.md R46: repeating a request yields the same result or the same fault. Repeated at once, a request that did
not fault leaves every port as it was; repeated in another run, it faults with the same fault. -/
def Obligations.RepeatedRequestRepeatsItsOutcome : Prop :=
  ∀ (s : State) (r : Request) (rest : List Request), Ready s r (r :: rest) →
    ∃ t, step s = .next t ∧
      (t.faultMark = none → ∃ v, t.hashedIndex = some v ∧ step t = .next (evaluated (presented t r rest) v)) ∧
      ∀ f, t.faultMark = some f → ∀ (s' : State) (rest' : List Request), Ready s' r rest' →
        ∃ t', step s' = .next t' ∧ t'.faultMark = some f

/-- 70_reset_and_hazards.md section 2: a request completes exactly when its algorithm and bank count are supported
together. A request that the caller configured, with a power of two for BITWISE, therefore does, and if its index is below
its bank count so is its result. -/
def Obligations.SupportedPairsComplete : Prop :=
  ∀ (s : State) (r : Request) (rest : List Request), Ready s r rest →
    (Safety.Supported r ↔ ∃ v, step s = .next (evaluated (presented s r rest) v)) ∧
      (Safety.Configured r → r.index.toNat < r.bankCount.toNat →
        ∃ v, step s = .next (evaluated (presented s r rest) v) ∧ v.toNat < r.bankCount.toNat)

/-- 44_selector.md R148 as a premise about the caller, with 70_reset_and_hazards.md section 2: a run whose `sel` and `bc`
stay the same faults at its first request or not at all. -/
def Obligations.ConstantConfigurationFaultsFirstOrNever : Prop :=
  ∀ requests : List Request, Safety.ConstantConfiguration requests →
    ((∀ r ∈ requests, Safety.Supported r) ∧ (observe requests).2 = none ∧ (observe requests).1.length = requests.length) ∨
      ∃ r rest f, requests = r :: rest ∧ ¬ Safety.Supported r ∧ observe requests = ([], some f)

/-- THE INVARIANT: the outputs are the function of the inputs, and the mark records the fault of the request on the ports
(70_reset_and_hazards.md R190 and 60_exceptions.md R165, the spec's own decisions D21 and D8; `none` for no result is
log 5, the mark in State is log 13). Every step keeps it. -/
def Obligations.StepKeepsPortsAgreed : Prop :=
  ∀ s t : State, s.Inv → step s = .next t → t.Inv

/-- The invariant holds at reset. The values of the input ports there are the model's choice (log 7). -/
def Obligations.ResetHasPortsAgreed : Prop :=
  State.reset.Inv

/-- 60_exceptions.md R165 (the spec's own decision D8): once the mark is set the run takes no further evaluation, and no
step clears it. -/
def Obligations.MarkedRunTakesNoEvaluation : Prop :=
  (∀ (s : State) (f : Fault), s.faultMark = some f → step s = .fault f) ∧
    ∀ s t : State, step s = .next t → s.faultMark = none

/-- The end of a successful run is left as it is: the model's choice (log 6). -/
def Obligations.EndedRunStaysEnded : Prop :=
  ∀ s : State, s.EndedSuccessfully → step s = .next s

/-- 60_exceptions.md R163 (the codes are the spec's own choice, D9): a step drives code 0 with no fault, 1 and 2 with the
two faults, and never the reserved code 3. -/
def Obligations.StepDrivesTheFaultCodes : Prop :=
  ∀ (s : State) (r : Request) (rest : List Request), Ready s r rest →
    ∃ t, step s = .next t ∧ t.faultCode ≠ 3#2 ∧ (t.faultValid = false ↔ t.faultCode = 0#2) ∧
      (t.faultCode = 0#2 ↔ t.faultMark = none) ∧
      (t.faultCode = 1#2 ↔ ∃ bc, t.faultMark = some (.unsupportedBankCount bc)) ∧
      (t.faultCode = 2#2 ↔ ∃ sel, t.faultMark = some (.unsupportedSelect sel))

/-- 60_exceptions.md section 4 (the end of a run is the spec's own decision, D23; its form as steps is the model's, log 3,
4, 6 and 13): from any unmarked state the run of its requests ends with the results up to the first fault observed, and
with that fault or successfully. The steps it takes are the evaluations it makes; every later step answers the ended run,
or the fault. -/
def Obligations.RunEndsWithItsObservation : Prop :=
  ∀ s : State, s.faultMark = none →
    ∃ t : State,
      Sys2Proof.core.run ((observe s.pending).1.length + (observe s.pending).2.toList.length) s = .next t ∧
      t.trace = s.trace ++ (observe s.pending).1 ∧ t.faultMark = (observe s.pending).2 ∧
      (t.faultMark = none → t.EndedSuccessfully ∧ (observe s.pending).1.length = s.pending.length ∧ step t = .next t) ∧
      ∀ f, t.faultMark = some f → step t = .fault f

/-- 20_memory.md section 3, for whole runs (runs are lists of requests, log 3 and 10): two runs without a fault whose
requests are the same in any two orders observe the same values in the corresponding orders. -/
def Obligations.ReorderedRunsObserveTheSameValues : Prop :=
  ∀ s s' : State, s.faultMark = none → s'.faultMark = none → s.pending.Perm s'.pending → (observe s.pending).2 = none →
    ∃ (t t' : State) (vs vs' : List HashedIndex),
      Sys2Proof.core.run s.pending.length s = .next t ∧ Sys2Proof.core.run s'.pending.length s' = .next t' ∧
      t.trace = s.trace ++ vs ∧ t'.trace = s'.trace ++ vs' ∧ (s.pending.zip vs).Perm (s'.pending.zip vs') ∧
      t.EndedSuccessfully ∧ t'.EndedSuccessfully

/-- 70_reset_and_hazards.md section 1 (the spec's own decision D21; the run's bookkeeping is log 3 and 13; after a fault
the clause on `hashed_index` is the model's choice, log 5: neither state has a result): at reset nothing is requested,
observed or marked, and the first evaluation after reset gives the same outputs as one at any later time. -/
def Obligations.FirstEvaluationAfterResetIsAnyEvaluation : Prop :=
  State.reset.pending = [] ∧ State.reset.trace = [] ∧ State.reset.faultMark = none ∧
    ∀ (s : State) (r : Request) (rest : List Request), Ready s r rest →
      ∃ t t', step { State.reset with pending := [r] } = .next t ∧ step s = .next t' ∧ t.hashedIndex = t'.hashedIndex ∧
        t.faultValid = t'.faultValid ∧ t.faultCode = t'.faultCode ∧ t.faultMark = t'.faultMark

/-! ## The eight operations: each completes in every state, with this result and this frame -/

/-- 41_ipoly.md R93. -/
def Obligations.Ipoly8Completes : Prop :=
  encode .ipoly8 = 0x000000008#34 ∧
    CompletesWithBits .ipoly8 3 (fun k hb idx => parity (hb &&& (Config.ipolyTable .b8 k).1) ^^ idx.getLsbD k) ∧
    ZeroHighBitsGiveIndexMod .ipoly8 8 ∧ SeparatesIndexMod .ipoly8 8 ∧ Gives .ipoly8 0#64 5#32 5#32

/-- 41_ipoly.md R94. -/
def Obligations.Ipoly16Completes : Prop :=
  encode .ipoly16 = 0x000000010#34 ∧
    CompletesWithBits .ipoly16 4 (fun k hb idx => parity (hb &&& (Config.ipolyTable .b16 k).1) ^^ idx.getLsbD k) ∧
    ZeroHighBitsGiveIndexMod .ipoly16 16 ∧ SeparatesIndexMod .ipoly16 16 ∧ Gives .ipoly16 0#64 13#32 13#32

/-- 41_ipoly.md R95. At `hb = 0` the result is `IB_32·(idx mod 32)`, asserted equal to nothing else. -/
def Obligations.Ipoly32Completes : Prop :=
  encode .ipoly32 = 0x000000020#34 ∧
    CompletesWithBits .ipoly32 5 (fun k hb idx =>
      parity (hb &&& (Config.ipolyTable .b32 k).1) ^^ parity (idx.extractLsb' 0 (IpolyBanks.width .b32) &&& (Config.ipolyTable .b32 k).2)) ∧
    Function.Bijective (applyRows fun k => (Config.ipolyTable .b32 k).2) ∧
    (∀ s : State, s.highBits = 0#64 →
      exec .ipoly32 s = .next (evaluated s
        ((applyRows (fun k => (Config.ipolyTable .b32 k).2) (BitVec.ofNat 5 (s.index.toNat % 32))).setWidth 32))) ∧
    SeparatesIndexMod .ipoly32 32 ∧ Gives .ipoly32 0#64 0#32 0#32

/-- 41_ipoly.md R96. -/
def Obligations.Ipoly64Completes : Prop :=
  encode .ipoly64 = 0x000000040#34 ∧
    CompletesWithBits .ipoly64 6 (fun k hb idx => parity (hb &&& (Config.ipolyTable .b64 k).1) ^^ idx.getLsbD k) ∧
    ZeroHighBitsGiveIndexMod .ipoly64 64 ∧ SeparatesIndexMod .ipoly64 64 ∧ Gives .ipoly64 0#64 45#32 45#32

/-- 41_ipoly.md R97. -/
def Obligations.Ipoly128Completes : Prop :=
  encode .ipoly128 = 0x000000080#34 ∧
    CompletesWithBits .ipoly128 7 (fun k hb idx => parity (hb &&& (Config.ipolyTable .b128 k).1) ^^ idx.getLsbD k) ∧
    ZeroHighBitsGiveIndexMod .ipoly128 128 ∧ SeparatesIndexMod .ipoly128 128 ∧ Gives .ipoly128 0#64 100#32 100#32

/-- 41_ipoly.md R98. At `hb = 0` the result is `IB_256·(idx mod 256)`, asserted equal to nothing else. -/
def Obligations.Ipoly256Completes : Prop :=
  encode .ipoly256 = 0x000000100#34 ∧
    CompletesWithBits .ipoly256 8 (fun k hb idx =>
      parity (hb &&& (Config.ipolyTable .b256 k).1) ^^ parity (idx.extractLsb' 0 (IpolyBanks.width .b256) &&& (Config.ipolyTable .b256 k).2)) ∧
    Function.Bijective (applyRows fun k => (Config.ipolyTable .b256 k).2) ∧
    (∀ s : State, s.highBits = 0#64 →
      exec .ipoly256 s = .next (evaluated s
        ((applyRows (fun k => (Config.ipolyTable .b256 k).2) (BitVec.ofNat 8 (s.index.toNat % 256))).setWidth 32))) ∧
    SeparatesIndexMod .ipoly256 256 ∧ Gives .ipoly256 0#64 0#32 0#32

/-- 42_bitwise.md section 2, BITWISE: its word, its result bit by bit, and its corner cases. The bit formula and the case
`bc = 0` are the spec's own decision D6: `bc - 1` is formed modulo 2^32 and the whole index enters the XOR. -/
def Obligations.BitwiseCompletes : Prop :=
  (∀ bc : BankCount, (encode (.bitwise bc)).extractLsb 33 32 = 1#2 ∧ (encode (.bitwise bc)).extractLsb 31 0 = bc ∧
    encode (.bitwise bc) &&& 0x300000000#34 = 0x100000000#34) ∧
  (∀ bc : BankCount, CompletesWithBits (.bitwise bc) 32 fun k hb idx => idx.getLsbD k ^^ (hb.getLsbD k && (bc - 1#32).getLsbD k)) ∧
  (∀ hb idx, Gives (.bitwise 1#32) hb idx idx) ∧
  (∀ hb idx, Gives (.bitwise 0#32) hb idx (idx ^^^ hb.extractLsb' 0 32)) ∧
  (∀ n, n ≤ 31 → CompletesWithBits (.bitwise (BitVec.twoPow 32 n)) 32
    fun k hb idx => idx.getLsbD k ^^ (hb.getLsbD k && decide (k.val < n))) ∧
  (∃ hb idx v, Gives (.bitwise 32#32) hb idx v ∧ 32 ≤ idx.toNat ∧ 32 ≤ v.toNat) ∧
  Gives (.bitwise 32#32) 0b100000#64 0b00101#32 0b00101#32

/-- 43_pae.md R135. At `hb = 0` the result is `PB·(idx mod 32)`, asserted equal to nothing else. -/
def Obligations.Pae32Completes : Prop :=
  encode .pae32 = 0x200000020#34 ∧
    CompletesWithBits .pae32 5 (fun k hb idx =>
      parity (hb &&& (Config.paeTable k).1) ^^ parity (idx.extractLsb' 0 5 &&& (Config.paeTable k).2)) ∧
    (∀ s : State, s.highBits = 0#64 →
      exec .pae32 s = .next (evaluated s
        ((applyRows (fun k => (Config.paeTable k).2) (BitVec.ofNat 5 (s.index.toNat % 32))).setWidth 32))) ∧
    SeparatesIndexMod .pae32 32 ∧ Gives .pae32 0#64 0#32 0#32

/-! ## The hashes -/

/-- 10_state.md R31, 41_ipoly.md R90, 43_pae.md R132: a successful IPOLY or PAE evaluation returns a value in
`[0, bank_count)`. -/
def Obligations.MatrixHashResultInRange : Prop :=
  ∀ (s t : State) (r : Request) (rest : List Request), Ready s r rest → r.sel ≠ 1#2 → step s = .next t → t.faultValid = false →
    ∃ v, t.hashedIndex = some v ∧ v.toNat < r.bankCount.toNat ∧ ∃ n, r.bankCount.toNat = 2 ^ n ∧ ∀ k, n ≤ k → v.getLsbD k = false

/-- 41_ipoly.md R91, 43_pae.md R133 (the spec's own decision D5): the index bits at or above `n` do not affect a matrix
hash. -/
def Obligations.MatrixHashIgnoresHighIndexBits : Prop :=
  (∀ (b : IpolyBanks) (hb : HighBits) (idx : Index), ipolyHash b hb idx = ipolyHash b hb (BitVec.ofNat 32 (idx.toNat % b.count))) ∧
    ∀ (hb : HighBits) (idx : Index), paeHash hb idx = paeHash hb (BitVec.ofNat 32 (idx.toNat % 32))

/-- 41_ipoly.md R88 and R89, which the spec derives from R81: the map is linear in both operands at once, zero at zero,
and changing `hb` XORs a constant into the result. -/
def Obligations.IpolyHashIsLinear : Prop :=
  ∀ (b : IpolyBanks),
    (∀ (hb hb' : HighBits) (idx idx' : Index), ipolyHash b (hb ^^^ hb') (idx ^^^ idx') = ipolyHash b hb idx ^^^ ipolyHash b hb' idx') ∧
    ipolyHash b 0#64 0#32 = 0#32 ∧
    ∀ (hb : HighBits), ∃ c : HashedIndex, (∀ k : Fin b.width, c.getLsbD k = parity (hb &&& (Config.ipolyTable b k).1)) ∧
      (∀ k, b.width ≤ k → c.getLsbD k = false) ∧ ∀ idx : Index, ipolyHash b hb idx = ipolyHash b 0#64 idx ^^^ c

/-- 43_pae.md R134, which the spec derives from R126. -/
def Obligations.PaeHashIsLinear : Prop :=
  (∀ (hb hb' : HighBits) (idx idx' : Index), paeHash (hb ^^^ hb') (idx ^^^ idx') = paeHash hb idx ^^^ paeHash hb' idx') ∧
    paeHash 0#64 0#32 = 0#32 ∧
    ∀ (hb : HighBits), ∃ c : HashedIndex, (∀ k : Fin 5, c.getLsbD k = parity (hb &&& (Config.paeTable k).1)) ∧
      (∀ k, 5 ≤ k → c.getLsbD k = false) ∧ ∀ idx : Index, paeHash hb idx = paeHash 0#64 idx ^^^ c

/-- 41_ipoly.md R87 and 43_pae.md R129, whose forms the spec derives from R81 and R126: for every fixed `hb`, the map from
the low index bits to the result is a bijection on `[0, bank_count)`. -/
def Obligations.MatrixHashesPermuteTheBanks : Prop :=
  (∀ (b : IpolyBanks) (hb : HighBits) (v : Nat), v < b.count → ∃! i, i < b.count ∧ (ipolyHash b hb (BitVec.ofNat 32 i)).toNat = v) ∧
    ∀ (hb : HighBits) (v : Nat), v < 32 → ∃! i, i < 32 ∧ (paeHash hb (BitVec.ofNat 32 i)).toNat = v

/-- 41_ipoly.md R84: for 8, 16, 64 and 128 banks the index part is the identity, so each output bit is the high part's
parity and the index bit of its own number, and with `hb = 0` the result equals the index. -/
def Obligations.IdentityIndexParts : Prop :=
  ∀ b : IpolyBanks, b.count ∈ [8, 16, 64, 128] →
    (∀ k, (Config.ipolyTable b k).2 = BitVec.twoPow b.width k) ∧
    (∀ (hb : HighBits) (idx : Index) (k : Fin b.width),
      (ipolyHash b hb idx).getLsbD k = (parity (hb &&& (Config.ipolyTable b k).1) ^^ idx.getLsbD k)) ∧
    ∀ idx : Index, idx.toNat < b.count → ipolyHash b 0#64 idx = idx

/-- 42_bitwise.md R115, which the spec derives from R111: for `bc = 2^n` an index below `bc` gives a result below `bc`,
and the index bits at or above `n` pass unchanged; the source's own range claim holds no further (`0xFFFFFFFA` for `8`).
-/
def Obligations.BitwiseRangeForPowersOfTwo : Prop :=
  (∀ (n : Nat) (hb : HighBits) (idx : Index), n ≤ 31 → idx.toNat < 2 ^ n → (bitwiseHash (BitVec.twoPow 32 n) hb idx).toNat < 2 ^ n) ∧
    (∀ (n k : Nat) (hb : HighBits) (idx : Index), n ≤ 31 → n ≤ k →
      (bitwiseHash (BitVec.twoPow 32 n) hb idx).getLsbD k = idx.getLsbD k) ∧
    bitwiseHash 8#32 5#64 0xFFFFFFFF#32 = 0xFFFFFFFA#32

/-- 42_bitwise.md R116, which the spec derives from R111: for fixed `hb` and `bc` the map of the index is its own inverse,
a bijection, and it permutes `[0, bc)` when `bc` is a power of two. -/
def Obligations.BitwiseIsItsOwnInverse : Prop :=
  ∀ (bc : BankCount) (hb : HighBits), (∀ idx : Index, bitwiseHash bc hb (bitwiseHash bc hb idx) = idx) ∧
    Function.Bijective (bitwiseHash bc hb) ∧
    (Safety.PowerOfTwoBanks bc → ∀ v : HashedIndex, v.toNat < bc.toNat → ∃! idx : Index, idx.toNat < bc.toNat ∧ bitwiseHash bc hb idx = v)

/-- 42_bitwise.md R117 to R120 (R117 is the spec's own decision D6, the others it derives from R111): the masks of `bc =
0` and `bc = 1`, `hb = 0`, linearity, and a bank count that is no power of two. -/
def Obligations.BitwiseMaskCorners : Prop :=
  (∀ (hb : HighBits) (idx : Index), bitwiseHash 0#32 hb idx = idx ^^^ hb.extractLsb' 0 32) ∧
    (∀ (hb : HighBits) (idx : Index), bitwiseHash 1#32 hb idx = idx) ∧
    (∀ (bc : BankCount) (idx : Index), bitwiseHash bc 0#64 idx = idx) ∧
    (∀ (bc : BankCount) (hb hb' : HighBits) (idx idx' : Index),
      bitwiseHash bc (hb ^^^ hb') (idx ^^^ idx') = bitwiseHash bc hb idx ^^^ bitwiseHash bc hb' idx') ∧
    bitwiseHash 7#32 6#64 5#32 = 3#32

/-- 41_ipoly.md section 2 and 43_pae.md section 1 (the named properties are the spec's own decision D18): whether the
index part of 32 banks has cross-terms is whether some index is not its own hash at `hb = 0`. Neither side is asserted. -/
def Obligations.CrossTermsMoveSomeIndex : Prop :=
  (Safety.Ipoly32Cross ↔ ∃ idx : Index, idx.toNat < 32 ∧ ipolyHash .b32 0#64 idx ≠ idx) ∧
    (Safety.PaeCross ↔ ∃ idx : Index, idx.toNat < 32 ∧ paeHash 0#64 idx ≠ idx)

/-- 00_scope.md section 3, for the six supported counts: `n(bc) = ⌈log2(bc)⌉`, with its six values, each exact. -/
def Obligations.IndexWidthIsCeilLog2 : Prop :=
  (∀ b : IpolyBanks, b.width = Nat.clog 2 b.count ∧ b.count = 2 ^ b.width) ∧ IpolyBanks.width .b8 = 3 ∧
    IpolyBanks.width .b16 = 4 ∧ IpolyBanks.width .b32 = 5 ∧ IpolyBanks.width .b64 = 6 ∧ IpolyBanks.width .b128 = 7 ∧
    IpolyBanks.width .b256 = 8

/-- 43_pae.md R130: a term XORed with itself contributes 0, so a literal formula with repeated terms and its simplified
form are the same function, which a row mask gives. -/
def Obligations.RepeatedTermsCancel : Prop :=
  ∀ (n : Nat) (v : BitVec n) (terms : List Nat),
    xorTerms v terms = parity (v &&& termsMask n terms) ∧
    ∀ j before, xorTerms v (before ++ j :: j :: terms) = xorTerms v (before ++ terms) ∧
      termsMask n (before ++ j :: j :: terms) = termsMask n (before ++ terms)

/-! ## The assembler text -/

/-- 30_encoding.md R72 (the mnemonic form is the spec's own choice, D13): the call form and the mnemonic form denote the
same requests, for every operation and all operands, `*` included. -/
def Obligations.CallAndMnemonicDenoteTheSame : Prop :=
  (∀ (hb idx : Operand) (r : Request) (b : IpolyBanks) (i : Instr), (operationWord 0#2 (BitVec.ofNat 32 b.count)) = encode i →
      (RequestText.mnemonic i hb idx).denotes r = (RequestText.call .ipoly hb idx (some b.count)).denotes r) ∧
    (∀ (hb idx : Operand) (r : Request) (bc : BankCount),
      (RequestText.mnemonic (.bitwise bc) hb idx).denotes r = (RequestText.call .bitwise hb idx (some bc.toNat)).denotes r) ∧
    ∀ (hb idx : Operand) (r : Request),
      (RequestText.mnemonic .pae32 hb idx).denotes r = (RequestText.call .pae hb idx (some 32)).denotes r

/-- 30_encoding.md R72 and R73: the spec's own example texts. -/
def Obligations.ExampleTextsRead : Prop :=
  readRequest "ipoly_hash(0, 5, 8)" = some (.call .ipoly (some 0) (some 5) (some 8)) ∧
    readRequest "IPOLY8 0, 5" = some (.mnemonic .ipoly8 (some 0) (some 5)) ∧
    readRequest "ipoly_hash(*, *, 7)" = some (.call .ipoly none none (some 7)) ∧
    readRequest "BITWISE 0b100000, 0b00101, 32" = some (.mnemonic (.bitwise 32#32) (some 32) (some 5)) ∧
    readRequest "BITWISE 0xFF, 0x25, 32" = some (.mnemonic (.bitwise 32#32) (some 255) (some 37))
end

