-- ==== Sys2Proof/Laws/Decode.lean ====
section
/-! SUPPORT. What the decoder reads: the two fields of the operation word, and the decoder on a word given by its fields. -/

namespace Sys2Proof.Laws

open Sys2Proof.Machine

@[simp] theorem opSelect_operationWord (sel : Select) (bc : BankCount) : opSelect (operationWord sel bc) = sel := by
  refine BitVec.eq_of_getLsbD_eq fun i hi => ?_
  simp only [opSelect, operationWord, BitVec.getLsbD_extractLsb', BitVec.getLsbD_append]
  simp [hi, show ¬ 32 + i < 32 by omega]

@[simp] theorem opBankCount_operationWord (sel : Select) (bc : BankCount) : opBankCount (operationWord sel bc) = bc := by
  refine BitVec.eq_of_getLsbD_eq fun i hi => ?_
  simp only [opBankCount, operationWord, BitVec.getLsbD_extractLsb', BitVec.getLsbD_append]
  simp [hi]

/-- A word is its two fields. -/
theorem operationWord_fields (w : OpWord) : operationWord (opSelect w) (opBankCount w) = w := by
  refine BitVec.eq_of_getLsbD_eq fun i hi => ?_
  simp only [opSelect, opBankCount, operationWord, BitVec.getLsbD_extractLsb', BitVec.getLsbD_append]
  by_cases h : i < 32
  · simp [h]
  · simp [h, show i - 32 < 2 by omega, show 32 + (i - 32) = i by omega]

/-- The decoder on a word given by its fields. -/
theorem decode_operationWord (sel : Select) (bc : BankCount) :
    decode (operationWord sel bc) =
      if sel = 0#2 then decodeIpoly bc
      else if sel = 1#2 then .ok (.bitwise bc)
      else if sel = 2#2 then decodePae bc
      else .error (.unsupportedSelect sel) := by
  simp [decode]

/-- The four values of `sel`. -/
theorem select_cases (sel : Select) : sel = 0#2 ∨ sel = 1#2 ∨ sel = 2#2 ∨ sel = 3#2 := by
  revert sel; decide

/-- What a request's decoding is, by the value of `sel`. -/
theorem decode_request (r : Request) :
    decode r.opw =
      if r.sel = 0#2 then decodeIpoly r.bankCount
      else if r.sel = 1#2 then .ok (.bitwise r.bankCount)
      else if r.sel = 2#2 then decodePae r.bankCount
      else .error (.unsupportedSelect r.sel) :=
  decode_operationWord r.sel r.bankCount

/-- What the polynomial hash's decoder can answer: an operation for a supported count, else the fault with the count. -/
theorem decodeIpoly_cases (bc : BankCount) :
    (Algorithm.ipoly.supports bc = true ∧ ∃ i, decodeIpoly bc = .ok i) ∨
      (Algorithm.ipoly.supports bc = false ∧ decodeIpoly bc = .error (.unsupportedBankCount bc)) := by
  unfold decodeIpoly Algorithm.supports
  split_ifs <;> simp_all

/-- What PAE's decoder can answer. -/
theorem decodePae_cases (bc : BankCount) :
    (Algorithm.pae.supports bc = true ∧ decodePae bc = .ok .pae32) ∨
      (Algorithm.pae.supports bc = false ∧ decodePae bc = .error (.unsupportedBankCount bc)) := by
  unfold decodePae Algorithm.supports
  split_ifs <;> simp_all

end Sys2Proof.Laws
end

