-- ==== Sys2Proof/Laws/Gf2.lean ====
section
/-! SUPPORT. What the GF(2) operations do: the small lemmas of Machine/Gf2.lean, cited instead of unfolding it. -/

namespace Sys2Proof.Laws

open Sys2Proof.Machine

theorem xorBelow_false (n : Nat) : xorBelow (fun _ => false) n = false := by
  induction n with
  | zero => rfl
  | succ n ih => simp [xorBelow_succ, ih]

/-- The sum modulo 2 is additive in the bit sequence. -/
theorem xorBelow_xor (f g : Nat → Bool) (n : Nat) :
    xorBelow (fun i => f i ^^ g i) n = (xorBelow f n ^^ xorBelow g n) := by
  induction n with
  | zero => rfl
  | succ n ih =>
    simp only [xorBelow_succ, ih]
    cases xorBelow f n <;> cases xorBelow g n <;> cases f n <;> cases g n <;> rfl

/-- The XOR of the masked bits is the parity of the bitwise AND, the form the spec's pseudocode writes. -/
theorem maskParity_eq_parity {n : Nat} (x m : BitVec n) : maskParity x m = parity (x &&& m) :=
  xorBelow_congr n fun _ _ => BitVec.getLsbD_and.symm

@[simp] theorem maskParity_zero {n : Nat} (m : BitVec n) : maskParity 0#n m = false := by
  simp [maskParity, xorBelow_false]

@[simp] theorem maskParity_zero_mask {n : Nat} (x : BitVec n) : maskParity x 0#n = false := by
  simp [maskParity, xorBelow_false]

theorem maskParity_xor {n : Nat} (x y m : BitVec n) :
    maskParity (x ^^^ y) m = (maskParity x m ^^ maskParity y m) := by
  rw [maskParity, maskParity, maskParity, ← xorBelow_xor]
  refine xorBelow_congr n fun i _ => ?_
  rw [BitVec.getLsbD_xor]
  cases x.getLsbD i <;> cases y.getLsbD i <;> cases m.getLsbD i <;> rfl

theorem maskParity_mask_xor {n : Nat} (x m m' : BitVec n) :
    maskParity x (m ^^^ m') = (maskParity x m ^^ maskParity x m') := by
  rw [maskParity, maskParity, maskParity, ← xorBelow_xor]
  refine xorBelow_congr n fun i _ => ?_
  rw [BitVec.getLsbD_xor]
  cases x.getLsbD i <;> cases m.getLsbD i <;> cases m'.getLsbD i <;> rfl

/-- A matrix applied to a sum is the sum of its values: the map is linear over GF(2). -/
theorem applyRows_xor {n m : Nat} (rows : Fin n → BitVec m) (x y : BitVec m) :
    applyRows rows (x ^^^ y) = applyRows rows x ^^^ applyRows rows y := by
  refine BitVec.eq_of_getLsbD_eq fun i hi => ?_
  simp [hi, maskParity_xor]

@[simp] theorem applyRows_zero {n m : Nat} (rows : Fin n → BitVec m) : applyRows rows 0#m = 0#n := by
  refine BitVec.eq_of_getLsbD_eq fun i hi => ?_
  simp [hi]

/-- The common form is the sum of the high part and the index part, zero-extended. -/
theorem matrixHash_eq {n : Nat} (high : Fin n → BitVec 64) (low : Fin n → BitVec n) (hb : HighBits) (b : BitVec n) :
    matrixHash high low hb b = (applyRows high hb ^^^ applyRows low b).setWidth 32 := by
  refine congrArg (BitVec.setWidth 32) (BitVec.eq_of_getLsbD_eq fun i hi => ?_)
  simp [hi]

/-- Every bit of the common form. -/
theorem getLsbD_matrixHash {n : Nat} (high : Fin n → BitVec 64) (low : Fin n → BitVec n) (hb : HighBits) (b : BitVec n)
    (hn : n ≤ 32) (k : Nat) :
    (matrixHash high low hb b).getLsbD k =
      if h : k < n then (maskParity hb (high ⟨k, h⟩) ^^ maskParity b (low ⟨k, h⟩)) else false := by
  rw [matrixHash, BitVec.getLsbD_setWidth, BitVec.getLsbD_ofFnLE]
  by_cases h : k < n
  · simp [h, show k < 32 by omega]
  · simp [h]

end Sys2Proof.Laws
end

