-- ==== Sys2Proof/Laws/State.lean ====
section
/-! SUPPORT. One lemma per field per update of State, so that no later proof unfolds an update. -/

namespace Sys2Proof.Laws

open Sys2Proof.Machine

variable (s : State)

@[simp] theorem present_sel (r : Request) (rest : List Request) : (s.present r rest).sel = r.sel := rfl
@[simp] theorem present_bankCount (r : Request) (rest : List Request) : (s.present r rest).bankCount = r.bankCount := rfl
@[simp] theorem present_highBits (r : Request) (rest : List Request) : (s.present r rest).highBits = r.highBits := rfl
@[simp] theorem present_index (r : Request) (rest : List Request) : (s.present r rest).index = r.index := rfl
@[simp] theorem present_hashedIndex (r : Request) (rest : List Request) : (s.present r rest).hashedIndex = s.hashedIndex := rfl
@[simp] theorem present_faultValid (r : Request) (rest : List Request) : (s.present r rest).faultValid = s.faultValid := rfl
@[simp] theorem present_faultCode (r : Request) (rest : List Request) : (s.present r rest).faultCode = s.faultCode := rfl
@[simp] theorem present_faultMark (r : Request) (rest : List Request) : (s.present r rest).faultMark = s.faultMark := rfl
@[simp] theorem present_trace (r : Request) (rest : List Request) : (s.present r rest).trace = s.trace := rfl
@[simp] theorem present_pending (r : Request) (rest : List Request) : (s.present r rest).pending = rest := rfl

@[simp] theorem complete_sel (v : HashedIndex) : (s.complete v).sel = s.sel := rfl
@[simp] theorem complete_bankCount (v : HashedIndex) : (s.complete v).bankCount = s.bankCount := rfl
@[simp] theorem complete_highBits (v : HashedIndex) : (s.complete v).highBits = s.highBits := rfl
@[simp] theorem complete_index (v : HashedIndex) : (s.complete v).index = s.index := rfl
@[simp] theorem complete_hashedIndex (v : HashedIndex) : (s.complete v).hashedIndex = some v := rfl
@[simp] theorem complete_faultValid (v : HashedIndex) : (s.complete v).faultValid = false := rfl
@[simp] theorem complete_faultCode (v : HashedIndex) : (s.complete v).faultCode = 0#2 := rfl
@[simp] theorem complete_faultMark (v : HashedIndex) : (s.complete v).faultMark = s.faultMark := rfl
@[simp] theorem complete_trace (v : HashedIndex) : (s.complete v).trace = s.trace ++ [v] := rfl
@[simp] theorem complete_pending (v : HashedIndex) : (s.complete v).pending = s.pending := rfl

@[simp] theorem takeFault_sel (f : Fault) : (s.takeFault f).sel = s.sel := rfl
@[simp] theorem takeFault_bankCount (f : Fault) : (s.takeFault f).bankCount = s.bankCount := rfl
@[simp] theorem takeFault_highBits (f : Fault) : (s.takeFault f).highBits = s.highBits := rfl
@[simp] theorem takeFault_index (f : Fault) : (s.takeFault f).index = s.index := rfl
@[simp] theorem takeFault_hashedIndex (f : Fault) : (s.takeFault f).hashedIndex = none := rfl
@[simp] theorem takeFault_faultValid (f : Fault) : (s.takeFault f).faultValid = true := rfl
@[simp] theorem takeFault_faultCode (f : Fault) : (s.takeFault f).faultCode = faultCodeOf f := rfl
@[simp] theorem takeFault_faultMark (f : Fault) : (s.takeFault f).faultMark = s.faultMark.or (some f) := rfl
@[simp] theorem takeFault_trace (f : Fault) : (s.takeFault f).trace = s.trace := rfl
@[simp] theorem takeFault_pending (f : Fault) : (s.takeFault f).pending = s.pending := rfl

@[simp] theorem withFetchWord_sel (nbits w : Nat) : (s.withFetchWord nbits w).sel = s.sel := rfl
@[simp] theorem withFetchWord_bankCount (nbits w : Nat) : (s.withFetchWord nbits w).bankCount = s.bankCount := rfl
@[simp] theorem withFetchWord_highBits (nbits w : Nat) : (s.withFetchWord nbits w).highBits = s.highBits := rfl
@[simp] theorem withFetchWord_index (nbits w : Nat) : (s.withFetchWord nbits w).index = s.index := rfl
@[simp] theorem withFetchWord_hashedIndex (nbits w : Nat) : (s.withFetchWord nbits w).hashedIndex = s.hashedIndex := rfl
@[simp] theorem withFetchWord_faultValid (nbits w : Nat) : (s.withFetchWord nbits w).faultValid = s.faultValid := rfl
@[simp] theorem withFetchWord_faultCode (nbits w : Nat) : (s.withFetchWord nbits w).faultCode = s.faultCode := rfl
@[simp] theorem withFetchWord_faultMark (nbits w : Nat) : (s.withFetchWord nbits w).faultMark = none := rfl
@[simp] theorem withFetchWord_trace (nbits w : Nat) : (s.withFetchWord nbits w).trace = s.trace := rfl
@[simp] theorem withFetchWord_pending (nbits w : Nat) : (s.withFetchWord nbits w).pending = s.queueWord (opSelect (BitVec.ofNat 34 w)) (opBankCount (BitVec.ofNat 34 w)) := rfl

@[simp] theorem present_request (r : Request) (rest : List Request) : (s.present r rest).request = r := rfl
@[simp] theorem present_opw (r : Request) (rest : List Request) : (s.present r rest).opw = r.opw := rfl
@[simp] theorem complete_request (v : HashedIndex) : (s.complete v).request = s.request := rfl
@[simp] theorem takeFault_request (f : Fault) : (s.takeFault f).request = s.request := rfl

end Sys2Proof.Laws
end

