-- ==== Sys2Proof/Laws/Ops.lean ====
section
/-! SUPPORT. What the shared operations and one step can do, said once. -/

namespace Sys2Proof.Laws

open Sys2Proof.Machine

/-- EVERY operation completes, in every state, with the hash it names: nothing else of the state is read, and nothing but
the outputs and the observation is written. -/
theorem exec_eq (i : Instr) (s : State) : exec i s = .next (s.complete (hashOf i s.highBits s.index)) := by
  cases i <;> rfl

/-- The caller's next request, when there is one. -/
theorem takeRequest_cases (s : State) :
    (s.pending = [] ∧ s.takeRequest = none) ∨
      ∃ r rest, s.pending = r :: rest ∧ s.takeRequest = some (s.present r rest) := by
  unfold State.takeRequest
  cases h : s.pending with
  | nil => exact .inl ⟨rfl, rfl⟩
  | cons r rest => exact .inr ⟨r, rest, rfl, rfl⟩

/-- One evaluation of the hardware, from the two outcomes of decoding. -/
theorem eval_cases (r : Request) :
    (∃ i, decode r.opw = .ok i ∧ eval r = .ok (hashOf i r.highBits r.index)) ∨
      ∃ f, decode r.opw = .error f ∧ eval r = .error f := by
  unfold eval
  cases decode r.opw with
  | ok i => exact .inl ⟨i, rfl, rfl⟩
  | error f => exact .inr ⟨f, rfl, rfl⟩

/-- What a step can answer next: an idle step at the end of a run, a completed evaluation, or a fault taken. -/
theorem step_cases {s s' : State} (h : step s = .next s') :
    s.faultMark = none ∧
      ((s.pending = [] ∧ s' = s) ∨
        ∃ r rest, s.pending = r :: rest ∧
          ((∃ i, decode r.opw = .ok i ∧ eval r = .ok (hashOf i r.highBits r.index) ∧
              s' = (s.present r rest).complete (hashOf i r.highBits r.index)) ∨
            ∃ f, decode r.opw = .error f ∧ eval r = .error f ∧ s' = (s.present r rest).takeFault f)) := by
  unfold step at h
  cases hm : s.faultMark with
  | some f => simp [hm] at h
  | none =>
    refine ⟨rfl, ?_⟩
    rcases takeRequest_cases s with ⟨hp, ht⟩ | ⟨r, rest, hp, ht⟩
    · simp only [hm, ht, Host.Outcome.next.injEq] at h
      exact .inl ⟨hp, h.symm⟩
    · refine .inr ⟨r, rest, hp, ?_⟩
      rcases eval_cases r with ⟨i, hd, he⟩ | ⟨f, hd, he⟩
      · simp only [hm, ht, present_opw, hd, exec_eq, Host.Outcome.next.injEq] at h
        exact .inl ⟨i, hd, he, h.symm⟩
      · simp only [hm, ht, present_opw, hd, Host.Outcome.next.injEq] at h
        exact .inr ⟨f, hd, he, h.symm⟩

/-- Every bit of the polynomial hash. -/
theorem getLsbD_ipolyHash (b : IpolyBanks) (hb : HighBits) (idx : Index) (k : Nat) :
    (ipolyHash b hb idx).getLsbD k =
      if h : k < b.width then
        (maskParity hb (Config.ipolyHigh b ⟨k, h⟩) ^^ maskParity (rawIndex b.width idx) (Config.ipolyIndex b ⟨k, h⟩))
      else false :=
  getLsbD_matrixHash _ _ _ _ (by cases b <;> decide) k

/-- Every bit of the page-address-entropy hash. -/
theorem getLsbD_paeHash (hb : HighBits) (idx : Index) (k : Nat) :
    (paeHash hb idx).getLsbD k =
      if h : k < 5 then (maskParity hb (Config.paeHigh ⟨k, h⟩) ^^ maskParity (rawIndex 5 idx) (Config.paeIndex.rows ⟨k, h⟩))
      else false :=
  getLsbD_matrixHash _ _ _ _ (by decide) k

/-- Every bit of the bitwise hash. -/
theorem getLsbD_bitwiseHash (bc : BankCount) (hb : HighBits) (idx : Index) (k : Nat) :
    (bitwiseHash bc hb idx).getLsbD k = (idx.getLsbD k ^^ (hb.getLsbD k && (bc - 1#32).getLsbD k)) := by
  by_cases h : k < 32
  · simp only [bitwiseHash, bankMask, BitVec.getLsbD_xor, BitVec.getLsbD_setWidth, BitVec.getLsbD_and]
    simp [h, show k < 64 by omega]
  · simp [BitVec.getLsbD_of_ge, show 32 ≤ k by omega]

/-- The raw index of a sum is the sum of the raw indices. -/
theorem rawIndex_xor (n : Nat) (x y : Index) : rawIndex n (x ^^^ y) = rawIndex n x ^^^ rawIndex n y := by
  refine BitVec.eq_of_getLsbD_eq fun i hi => ?_
  simp [rawIndex, hi]

end Sys2Proof.Laws
end

