-- ==== Sys2Proof/Laws/PerInstr.lean ====
section
/-! SUPPORT. A statement for all instructions, one lemma per constructor: an instruction's word lies in the row of the opcode
map that bears its mnemonic, and in no other row (30_encoding.md R64). -/

namespace Sys2Proof.Laws.EncodesInItsRow

/-- The word of `i` matches exactly the rows with its mnemonic. -/
def Statement (i : Instr) : Prop :=
  i.wf = true ∧ ∀ row ∈ opcodeTable, encode i &&& row.mask = row.pattern ↔ row.mnemonic = mnemonicOf i

theorem ipoly8 : Statement .ipoly8 := ⟨rfl, by decide⟩

theorem ipoly16 : Statement .ipoly16 := ⟨rfl, by decide⟩

theorem ipoly32 : Statement .ipoly32 := ⟨rfl, by decide⟩

theorem ipoly64 : Statement .ipoly64 := ⟨rfl, by decide⟩

theorem ipoly128 : Statement .ipoly128 := ⟨rfl, by decide⟩

theorem ipoly256 : Statement .ipoly256 := ⟨rfl, by decide⟩

/-- Whatever its bank count, the BITWISE word has `sel = 1`. -/
theorem bitwise_top_bits (bc : BankCount) : encode (.bitwise bc) &&& 0x300000000#34 = 0x100000000#34 := by
  refine BitVec.eq_of_getLsbD_eq fun i hi => ?_
  rw [encode, BitVec.getLsbD_and, BitVec.getLsbD_or, BitVec.getLsbD_setWidth]
  by_cases h : i < 32
  · have hz : (0x300000000#34).getLsbD i = false ∧ (0x100000000#34).getLsbD i = false := by
      revert i; decide
    simp [hz.1, hz.2]
  · rw [BitVec.getLsbD_of_ge bc i (by omega)]
    interval_cases i <;> decide

theorem bitwise (bc : BankCount) : Statement (.bitwise bc) := by
  have top := bitwise_top_bits bc
  have other : ∀ row : OpcodeRow, row.mask &&& 0x300000000#34 = 0x300000000#34 →
      row.pattern &&& 0x300000000#34 ≠ 0x100000000#34 → row.mnemonic ≠ "BITWISE" →
      (encode (.bitwise bc) &&& row.mask = row.pattern ↔ row.mnemonic = mnemonicOf (.bitwise bc)) := by
    intro row hm hp hn
    refine ⟨fun h => absurd ?_ hp, fun h => absurd h hn⟩
    rw [← h, BitVec.and_assoc, hm, top]
  refine ⟨rfl, fun row hrow => ?_⟩
  simp only [opcodeTable, List.mem_cons, List.not_mem_nil, or_false] at hrow
  rcases hrow with rfl | rfl | rfl | rfl | rfl | rfl | rfl | rfl
  case inr.inr.inr.inr.inr.inr.inl => exact ⟨fun _ => rfl, fun _ => top⟩
  all_goals exact other _ (by decide) (by decide) (by decide)

theorem pae32 : Statement .pae32 := ⟨rfl, by decide⟩

end Sys2Proof.Laws.EncodesInItsRow
end

