-- ==== Sys2Proof/Tests/Slice0.lean ====
section
/-! SUPPORT. Tests: expected values are the spec's own (30_encoding.md R64, 95_test_vectors.md), named where they come from,
and one witness for the hypotheses of each statement that has any. -/

namespace Sys2Proof.Tests

open Sys2Proof.Machine Sys2Proof.Claims

/-- A run from reset whose requests are `rs`. -/
def fresh (rs : List Request) : State :=
  { State.reset with pending := rs }

/-- Reset with the operands on the ports. -/
def ports (hb : HighBits) (idx : Index) : State :=
  { State.reset with highBits := hb, index := idx }

/-- The fields a test reads of a step's next state: the result, the fault code and the fault mark. -/
def seen : Host.Outcome State Fault Refusal → Option (Option HashedIndex × FaultCode × Option Fault)
  | .next s => some (s.hashedIndex, s.faultCode, s.faultMark)
  | _ => none

/-- The fault a step stops with. -/
def stopped : Host.Outcome State Fault Refusal → Option Fault
  | .fault f => some f
  | _ => none

/-! ## Well-formedness: the check refuses an ill-formed call -/

theorem test_wf_refuses_ipoly_7 : Call.wf ⟨.ipoly, 7#32⟩ = false := by decide
theorem test_wf_refuses_pae_64 : Call.wf ⟨.pae, 64#32⟩ = false := by decide
theorem test_wf_accepts_supported : (Call.wf ⟨.ipoly, 256#32⟩ && Call.wf ⟨.pae, 32#32⟩ && Call.wf ⟨.bitwise, 7#32⟩) = true := by decide

/-! ## Decoding: words written out bit by bit, `sel` in bits 33:32 and `bc` in bits 31:0 (30_encoding.md R60, R64) -/

theorem test_decode_ipoly8 : decode 0b0000000000000000000000000000001000#34 = .ok .ipoly8 := by decide
theorem test_decode_ipoly16 : decode 0b0000000000000000000000000000010000#34 = .ok .ipoly16 := by decide
theorem test_decode_ipoly32 : decode 0b0000000000000000000000000000100000#34 = .ok .ipoly32 := by decide
theorem test_decode_ipoly64 : decode 0b0000000000000000000000000001000000#34 = .ok .ipoly64 := by decide
theorem test_decode_ipoly128 : decode 0b0000000000000000000000000010000000#34 = .ok .ipoly128 := by decide
theorem test_decode_ipoly256 : decode 0b0000000000000000000000000100000000#34 = .ok .ipoly256 := by decide
theorem test_decode_bitwise : decode 0b0110000000000000000000000000000111#34 = .ok (.bitwise 0x80000007#32) := by decide
theorem test_decode_pae32 : decode 0b1000000000000000000000000000100000#34 = .ok .pae32 := by decide
/-- 95_test_vectors.md V-D3, V-D6, V-D10, V-D16. -/
theorem test_decode_faults : decode 0x000000000#34 = .error (.unsupportedBankCount 0#32) ∧
    decode 0x000000018#34 = .error (.unsupportedBankCount 24#32) ∧
    decode 0x200000010#34 = .error (.unsupportedBankCount 16#32) ∧
    decode 0x300000007#34 = .error (.unsupportedSelect 3#2) := by decide
theorem test_table_word : decodeTableWord 40 0x200000020 = some .pae32 ∧ decodeTableWord 40 0x400000008 = none ∧
    decodeTableWord 40 0x300000020 = none := by decide

/-! ## One evaluation -/

/-- 95_test_vectors.md L1-3 (the source's golden vector) and V-I2, for every admissible table. -/
theorem test_ipoly8 : seen (execIpoly8 (ports 0#64 5#32)) = some (some 5#32, 0#2, none) ∧
    seen (execIpoly8 (ports 0#64 13#32)) = some (some 5#32, 0#2, none) := by decide
/-- V-I4. -/
theorem test_ipoly16 : seen (execIpoly16 (ports 0#64 0x1F#32)) = some (some 15#32, 0#2, none) := by decide
/-- V-I9. -/
theorem test_ipoly32 : seen (execIpoly32 (ports 0#64 0#32)) = some (some 0#32, 0#2, none) := by decide
/-- V-I6. -/
theorem test_ipoly64 : seen (execIpoly64 (ports 0#64 0xFFFFFFFF#32)) = some (some 63#32, 0#2, none) := by decide
/-- V-I7. -/
theorem test_ipoly128 : seen (execIpoly128 (ports 0#64 100#32)) = some (some 100#32, 0#2, none) := by decide
/-- V-I10. -/
theorem test_ipoly256 : seen (execIpoly256 (ports 0#64 0#32)) = some (some 0#32, 0#2, none) := by decide
/-- L1-2 as 90_conflicts.md C1 corrects it, and V-B12. -/
theorem test_bitwise : seen (execBitwise 32#32 (ports 0b10101#64 0b00101#32)) = some (some 0b10000#32, 0#2, none) ∧
    seen (execBitwise 8#32 (ports 5#64 0xFFFFFFFF#32)) = some (some 0xFFFFFFFA#32, 0#2, none) := by decide
/-- V-B8 (bank count 0) and V-B7 (no power of two). -/
theorem test_bitwise_masks : bitwiseHash 0#32 0xDEADBEEFCAFEF00D#64 0x12345678#32 = 0xD8CAA675#32 ∧
    bitwiseHash 7#32 6#64 5#32 = 3#32 := by decide
/-- V-P1. -/
theorem test_pae32 : seen (execPae32 (ports 0#64 0#32)) = some (some 0#32, 0#2, none) := by decide

/-- The rows of 41_ipoly.md section 4 for 16 banks: a table to run the common form with, not the hardware's (D19). -/
def upstream16 : Fin 4 → BitVec 64 :=
  fun k => [0x00F59#64, 0x011EB#64, 0x003D6#64, 0x007AC#64][k]

/-- The rows of 41_ipoly.md section 4 for 64 banks: a table to run the common form with, not the hardware's (D19). -/
def upstream64 : Fin 6 → BitVec 64 :=
  fun k => [0x79461#64, 0x0BCA3#64, 0x17946#64, 0x2F28C#64, 0x5E518#64, 0x3CA30#64][k]

/-- 95_test_vectors.md section 6: 16 banks, `hb = 0x1234`, `idx = 10`, and `hb` all ones, `idx = 3`. -/
theorem test_matrix_form_16 : matrixHash upstream16 (identityRows 4) 0x1234#64 (rawIndex 4 10#32) = 6#32 ∧
    matrixHash upstream16 (identityRows 4) 0xFFFFFFFFFFFFFFFF#64 (rawIndex 4 3#32) = 15#32 := by decide
/-- 95_test_vectors.md section 6: 64 banks, `hb = 0x1234`, `idx = 10`, and `hb = 0x7FFFF`, `idx = 0`. -/
theorem test_matrix_form_64 : matrixHash upstream64 (identityRows 6) 0x1234#64 (rawIndex 6 10#32) = 50#32 ∧
    matrixHash upstream64 (identityRows 6) 0x7FFFF#64 (rawIndex 6 0#32) = 31#32 := by decide

/-! ## One step -/

/-- P4, step 1. -/
theorem test_step_evaluates : seen (step (fresh [⟨1#2, 16#32, 9#64, 6#32⟩])) = some (some 0xF#32, 0#2, none) := by decide
/-- L1-5: `pae_hash(*, *, 64)`, with code 1 and no result. -/
theorem test_step_takes_fault : seen (step (fresh [⟨2#2, 64#32, 0#64, 0#32⟩])) =
    some (none, 1#2, some (.unsupportedBankCount 64#32)) := by decide
/-- P4, step 4. -/
theorem test_step_takes_select_fault : seen (step (fresh [⟨3#2, 16#32, 0#64, 0#32⟩])) =
    some (none, 2#2, some (.unsupportedSelect 3#2)) := by decide
/-- P3, step 4: after the fault nothing is evaluated. -/
theorem test_marked_run_stops : stopped (step { fresh [⟨0#2, 8#32, 0#64, 5#32⟩] with
    faultMark := some (.unsupportedBankCount 64#32) }) = some (.unsupportedBankCount 64#32) := by decide
theorem test_fetch_word : seen (step (State.reset.withFetchWord 40 0x000000020)) = some (some 0#32, 0#2, none) ∧
    seen (step (State.reset.withFetchWord 40 0x200000021)) = some (none, 1#2, some (.unsupportedBankCount 33#32)) := by decide
/-- P3: the observation is `(0, 16)` and then the fault. -/
theorem test_observe_p3 : observe [⟨2#2, 32#32, 0#64, 0#32⟩, ⟨1#2, 32#32, 0b10101#64, 0b00101#32⟩, ⟨2#2, 64#32, 0#64, 0#32⟩,
    ⟨0#2, 8#32, 0#64, 5#32⟩] = ([0#32, 16#32], some (.unsupportedBankCount 64#32)) := by decide

/-! ## Assembler text (30_encoding.md R72, R73) -/

theorem test_text_denotes : ((readRequest "ipoly_hash(0, 5, 8)").map (·.denotes ⟨0#2, 8#32, 0#64, 5#32⟩)) = some true ∧
    ((readRequest "ipoly_hash(*, *, 7)").map (·.denotes ⟨0#2, 7#32, 9#64, 4#32⟩)) = some true ∧
    ((readRequest "PAE32 0, 0b101").map (·.denotes ⟨2#2, 32#32, 0#64, 4#32⟩)) = some false := by decide
theorem test_text_refused : readRequest "IPOLY7 0, 5" = none ∧ readRequest "BITWISE 0, 5" = none ∧
    readRequest "IPOLY8 0b, 5" = none ∧ readRequest "BITWISE 0, 0, 4294967296" = none := by decide
/-- Log 12: `*` as a bank count is read in a call and refused in the mnemonic form. -/
theorem test_text_any_bank_count : readRequest "BITWISE 0, 0, *" = none ∧
    readRequest "bitwise_hash(0, 0, *)" = some (.call .bitwise (some 0) (some 0) none) := by decide

/-! ## Witnesses: states and operands that meet the hypotheses of the statements -/

/-- The request of the source's golden vector. -/
def golden : Request := ⟨0#2, 8#32, 0#64, 5#32⟩

theorem witness_DecodeInvertsEncode : decode 0x1FFFFFFFF#34 = .ok (.bitwise 0xFFFFFFFF#32) ∧
    encode (.bitwise 0xFFFFFFFF#32) = 0x1FFFFFFFF#34 := by decide
theorem witness_OpcodeRowsMatchDecode : ∃ row ∈ opcodeTable, 0x1FFFFFFFF#34 &&& row.mask = row.pattern := by decide
theorem witness_IllegalWordsRaiseUnsupportedBankCount : (7#32).toNat ∉ ipolyCounts ∧ (0#32).toNat ∉ ipolyCounts ∧
    (257#32).toNat ∉ ipolyCounts ∧ 33#32 ≠ 32#32 ∧ 31#32 ≠ 32#32 := by decide
theorem witness_StepRunsTheDecodedOperation : Ready (fresh [golden]) golden [] ∧
    decode (golden.sel ++ golden.bankCount) = .ok .ipoly8 := ⟨⟨rfl, rfl⟩, by decide⟩
theorem witness_FaultingRequestSetsMarkThenStops : Ready (fresh [⟨2#2, 31#32, 0#64, 0#32⟩]) ⟨2#2, 31#32, 0#64, 0#32⟩ [] ∧
    decode (2#2 ++ 31#32) = .error (.unsupportedBankCount 31#32) := ⟨⟨rfl, rfl⟩, by decide⟩
theorem witness_FaultingRequestSetsMarkThenStops_select : Ready (fresh [⟨3#2, 32#32, 0#64, 0#32⟩]) ⟨3#2, 32#32, 0#64, 0#32⟩ [] ∧
    decode (3#2 ++ 32#32) = .error (.unsupportedSelect 3#2) := ⟨⟨rfl, rfl⟩, by decide⟩
theorem witness_UnsupportedBankCountExactCases : Ready (fresh [⟨0#2, 257#32, 0#64, 0#32⟩]) ⟨0#2, 257#32, 0#64, 0#32⟩ [] ∧
    seen (step (fresh [⟨0#2, 257#32, 0#64, 0#32⟩])) = some (none, 1#2, some (.unsupportedBankCount 257#32)) :=
  ⟨⟨rfl, rfl⟩, by decide⟩
theorem witness_UnsupportedBankCountExactCases_pae : Ready (fresh [⟨2#2, 33#32, 0#64, 0#32⟩]) ⟨2#2, 33#32, 0#64, 0#32⟩ [] ∧
    seen (step (fresh [⟨2#2, 33#32, 0#64, 0#32⟩])) = some (none, 1#2, some (.unsupportedBankCount 33#32)) :=
  ⟨⟨rfl, rfl⟩, by decide⟩
theorem witness_ReservedSelectFaultsBeforeBankCount :
    Ready (fresh [⟨3#2, 7#32, 0#64, 0#32⟩]) ⟨3#2, 7#32, 0#64, 0#32⟩ [] := ⟨rfl, rfl⟩
theorem witness_NoOperandIsAnError : Ready (fresh [golden]) golden [] ∧
    Ready (fresh [{ golden with highBits := 1#64, index := 9#32 }]) { golden with highBits := 1#64, index := 9#32 } [] :=
  ⟨⟨rfl, rfl⟩, ⟨rfl, rfl⟩⟩
theorem witness_BitwiseNeverFaults : Ready (fresh [⟨1#2, 0#32, 0#64, 0#32⟩]) ⟨1#2, 0#32, 0#64, 0#32⟩ [] := ⟨rfl, rfl⟩
theorem witness_SelectorEvaluatesTheSelectedHash_ipoly : Ready (fresh [golden]) golden [] ∧ golden.sel = 0#2 ∧
    golden.bankCount.toNat = IpolyBanks.count .b8 := ⟨⟨rfl, rfl⟩, rfl, rfl⟩
theorem witness_SelectorEvaluatesTheSelectedHash_pae :
    Ready (fresh [⟨2#2, 32#32, 0#64, 0#32⟩]) ⟨2#2, 32#32, 0#64, 0#32⟩ [] ∧ (32#32).toNat = 32 := ⟨⟨rfl, rfl⟩, rfl⟩
theorem witness_SelectorEvaluatesTheSelectedHash_bitwise :
    Ready (fresh [⟨1#2, 7#32, 6#64, 5#32⟩]) ⟨1#2, 7#32, 6#64, 5#32⟩ [] := ⟨rfl, rfl⟩
theorem witness_OutputsDependOnOwnRequestOnly : Ready (fresh [golden]) golden [] ∧
    Ready { fresh [golden, golden] with trace := [7#32], index := 3#32 } golden [golden] := ⟨⟨rfl, rfl⟩, ⟨rfl, rfl⟩⟩
theorem witness_RepeatedRequestRepeatsItsOutcome : Ready (fresh [golden, golden]) golden [golden] ∧
    seen (step (fresh [golden, golden])) = some (some 5#32, 0#2, none) := ⟨⟨rfl, rfl⟩, by decide⟩
theorem witness_RepeatedRequestRepeatsItsOutcome_fault :
    Ready (fresh [⟨3#2, 0#32, 0#64, 0#32⟩, ⟨3#2, 0#32, 0#64, 0#32⟩]) ⟨3#2, 0#32, 0#64, 0#32⟩ [⟨3#2, 0#32, 0#64, 0#32⟩] ∧
    seen (step (fresh [⟨3#2, 0#32, 0#64, 0#32⟩, ⟨3#2, 0#32, 0#64, 0#32⟩])) = some (none, 2#2, some (.unsupportedSelect 3#2)) :=
  ⟨⟨rfl, rfl⟩, by decide⟩
theorem witness_SupportedPairsComplete : Ready (fresh [golden]) golden [] ∧ Safety.Configured golden ∧
    golden.index.toNat < golden.bankCount.toNat :=
  ⟨⟨rfl, rfl⟩, ⟨⟨.ipoly, rfl, by decide⟩, fun h => absurd h (by decide)⟩, by decide⟩
theorem witness_SupportedPairsComplete_bitwise : Ready (fresh [⟨1#2, 1#32, 6#64, 0#32⟩]) ⟨1#2, 1#32, 6#64, 0#32⟩ [] ∧
    Safety.Configured ⟨1#2, 1#32, 6#64, 0#32⟩ := ⟨⟨rfl, rfl⟩, ⟨⟨.bitwise, rfl, rfl⟩, fun _ => ⟨0, by decide, by decide⟩⟩⟩
theorem witness_ConstantConfigurationFaultsFirstOrNever :
    Safety.ConstantConfiguration [golden, { golden with index := 6#32 }] ∧
    Safety.ConstantConfiguration [{ golden with bankCount := 9#32 }] := by
  simp [Safety.ConstantConfiguration, Request.opw]
theorem witness_StepKeepsPortsAgreed : (fresh [golden]).Inv ∧ seen (step (fresh [golden])) = some (some 5#32, 0#2, none) :=
  ⟨⟨by decide, by decide, by decide, by decide⟩, by decide⟩
theorem witness_MarkedRunTakesNoEvaluation : { State.reset with faultMark := some (.unsupportedSelect 3#2) }.faultMark =
    some (.unsupportedSelect 3#2) ∧ seen (step State.reset) = some (some 0#32, 0#2, none) := by decide
theorem witness_EndedRunStaysEnded : State.reset.EndedSuccessfully := ⟨rfl, rfl⟩
theorem witness_StepDrivesTheFaultCodes : Ready (fresh [golden]) golden [] := ⟨rfl, rfl⟩
theorem witness_RunEndsWithItsObservation : (fresh [golden]).faultMark = none ∧
    observe (fresh [golden]).pending = ([5#32], none) := by decide
theorem witness_RunEndsWithItsObservation_fault : (fresh [golden, { golden with bankCount := 9#32 }]).faultMark = none ∧
    observe [golden, { golden with bankCount := 9#32 }] = ([5#32], some (.unsupportedBankCount 9#32)) := by decide
theorem witness_ReorderedRunsObserveTheSameValues : (fresh [golden, ⟨1#2, 7#32, 6#64, 5#32⟩]).pending.Perm
      (fresh [⟨1#2, 7#32, 6#64, 5#32⟩, golden]).pending ∧ (observe [golden, ⟨1#2, 7#32, 6#64, 5#32⟩]).2 = none :=
  ⟨.swap _ _ _, by decide⟩
theorem witness_FirstEvaluationAfterResetIsAnyEvaluation :
    Ready { fresh [golden] with trace := [1#32] } golden [] := ⟨rfl, rfl⟩

/-- The hypotheses of `SeparatesIndexMod`, `ZeroHighBitsGiveIndexMod` and `Gives` at two indices of one class: an operation
that completes on them with one result. -/
def Meets (i : Instr) (x y : Index) (v : HashedIndex) : Prop :=
  exec i (ports 0#64 x) = .next (evaluated (ports 0#64 x) v) ∧ exec i (ports 0#64 y) = .next (evaluated (ports 0#64 y) v)

theorem witness_Ipoly8Completes : Meets .ipoly8 5#32 13#32 5#32 := ⟨rfl, rfl⟩
theorem witness_Ipoly16Completes : Meets .ipoly16 13#32 29#32 13#32 := ⟨rfl, rfl⟩
theorem witness_Ipoly32Completes : Meets .ipoly32 0#32 32#32 0#32 := ⟨rfl, rfl⟩
theorem witness_Ipoly64Completes : Meets .ipoly64 45#32 109#32 45#32 := ⟨rfl, rfl⟩
theorem witness_Ipoly128Completes : Meets .ipoly128 100#32 228#32 100#32 := ⟨rfl, rfl⟩
theorem witness_Ipoly256Completes : Meets .ipoly256 0#32 256#32 0#32 := ⟨rfl, rfl⟩
theorem witness_Pae32Completes : Meets .pae32 0#32 32#32 0#32 := ⟨rfl, rfl⟩
theorem witness_BitwiseCompletes : exec (.bitwise (BitVec.twoPow 32 31)) (ports 0xFFFFFFFFFFFFFFFF#64 0#32) =
    .next (evaluated (ports 0xFFFFFFFFFFFFFFFF#64 0#32) 0x7FFFFFFF#32) := rfl
theorem witness_BitwiseCompletes_one_bank : exec (.bitwise (BitVec.twoPow 32 0)) (ports 0xFFFFFFFFFFFFFFFF#64 9#32) =
    .next (evaluated (ports 0xFFFFFFFFFFFFFFFF#64 9#32) 9#32) := rfl
theorem witness_MatrixHashResultInRange : Ready (fresh [golden]) golden [] ∧ golden.sel ≠ 1#2 ∧
    seen (step (fresh [golden])) = some (some 5#32, 0#2, none) := ⟨⟨rfl, rfl⟩, by decide, by decide⟩
theorem witness_IdentityIndexParts : IpolyBanks.count .b128 ∈ [8, 16, 64, 128] ∧ (127#32).toNat < IpolyBanks.count .b128 := by decide
theorem witness_BitwiseRangeForPowersOfTwo : (31 : Nat) ≤ 31 ∧ (0x7FFFFFFF#32).toNat < 2 ^ 31 ∧ (0#32).toNat < 2 ^ 0 ∧
    (bitwiseHash (BitVec.twoPow 32 31) 0xFFFFFFFFFFFFFFFF#64 0#32).getLsbD 31 = false := by decide
theorem witness_BitwiseIsItsOwnInverse : Safety.PowerOfTwoBanks 0x80000000#32 ∧ (0x7FFFFFFF#32).toNat < (0x80000000#32).toNat :=
  ⟨⟨31, by decide, by decide⟩, by decide⟩
theorem witness_CallAndMnemonicDenoteTheSame : operationWord 0#2 (BitVec.ofNat 32 (IpolyBanks.count .b256)) = encode .ipoly256 := by
  decide
theorem witness_MatrixHashesPermuteTheBanks : 255 < IpolyBanks.count .b256 ∧ (ipolyHash .b16 0#64 15#32).toNat = 15 := by decide

end Sys2Proof.Tests
end

/-! PROOFS. The range of the two matrix hashes (10_state.md R31, 41_ipoly.md R90, 43_pae.md R132): a successful evaluation
with `sel` other than 1 has `2^n` banks and a result of `n` bits. -/

namespace Sys2Proof.Proofs

open Sys2Proof.Machine Sys2Proof.Laws Sys2Proof.Claims

/-- The six supported counts are powers of two, with the index width as exponent (00_scope.md R7, R8). -/
theorem count_eq_two_pow_width (b : IpolyBanks) : b.count = 2 ^ b.width := by
  cases b <;> rfl

/-- What the polynomial hash's decoder answers is the hash of a supported count, and that count is the request's. -/
theorem decodeIpoly_ok {bc : BankCount} {i : Instr} (h : decodeIpoly bc = .ok i) :
    ∃ b : IpolyBanks, bc.toNat = b.count ∧ hashOf i = ipolyHash b := by
  unfold decodeIpoly at h
  split_ifs at h with h8 h16 h32 h64 h128 h256 <;> cases h
  · exact ⟨.b8, h8 ▸ rfl, rfl⟩
  · exact ⟨.b16, h16 ▸ rfl, rfl⟩
  · exact ⟨.b32, h32 ▸ rfl, rfl⟩
  · exact ⟨.b64, h64 ▸ rfl, rfl⟩
  · exact ⟨.b128, h128 ▸ rfl, rfl⟩
  · exact ⟨.b256, h256 ▸ rfl, rfl⟩

theorem decodePae_ok {bc : BankCount} {i : Instr} (h : decodePae bc = .ok i) : bc = 32#32 ∧ i = .pae32 := by
  unfold decodePae at h
  split_ifs at h with h32
  cases h
  exact ⟨h32, rfl⟩

/-- A request with `sel` other than 1 that decodes names one of the two matrix hashes, with a bank count it supports. -/
theorem decode_ok_of_sel_ne_one {r : Request} {i : Instr} (hsel : r.sel ≠ 1#2) (hd : decode r.opw = .ok i) :
    (∃ b : IpolyBanks, r.bankCount.toNat = b.count ∧ hashOf i = ipolyHash b) ∨
      (r.bankCount = 32#32 ∧ i = .pae32) := by
  rw [decode_request, if_neg hsel] at hd
  split_ifs at hd
  · exact .inl (decodeIpoly_ok hd)
  · exact .inr (decodePae_ok hd)

theorem getLsbD_ipolyHash_of_width_le (b : IpolyBanks) (hb : HighBits) (idx : Index) {k : Nat} (hk : b.width ≤ k) :
    (ipolyHash b hb idx).getLsbD k = false := by
  rw [getLsbD_ipolyHash, dif_neg (by omega)]

theorem getLsbD_paeHash_of_five_le (hb : HighBits) (idx : Index) {k : Nat} (hk : 5 ≤ k) :
    (paeHash hb idx).getLsbD k = false := by
  rw [getLsbD_paeHash, dif_neg (by omega)]

/-- A legal operation with `sel` other than 1 has `2^n` banks, and its hash has no bit at or above `n`. -/
theorem exists_width_of_sel_ne_one {r : Request} {i : Instr} (hsel : r.sel ≠ 1#2) (hd : decode r.opw = .ok i)
    (hb : HighBits) (idx : Index) :
    ∃ n, r.bankCount.toNat = 2 ^ n ∧ ∀ k, n ≤ k → (hashOf i hb idx).getLsbD k = false := by
  rcases decode_ok_of_sel_ne_one hsel hd with ⟨b, hcount, hhash⟩ | ⟨hcount, rfl⟩
  · rw [hhash]
    exact ⟨b.width, hcount.trans (count_eq_two_pow_width b), fun _ => getLsbD_ipolyHash_of_width_le b hb idx⟩
  · exact ⟨5, hcount ▸ rfl, fun _ => getLsbD_paeHash_of_five_le hb idx⟩

/-- A step on the request `r` that leaves `fault_valid` clear executed the operation `r` decodes to and shows its hash. -/
theorem step_result_of_ready {s t : State} {r : Request} {rest : List Request} (hr : Ready s r rest)
    (hstep : step s = .next t) (hvalid : t.faultValid = false) :
    ∃ i, decode r.opw = .ok i ∧ t.hashedIndex = some (hashOf i r.highBits r.index) := by
  obtain ⟨-, hpending⟩ := hr
  obtain ⟨-, ⟨hnil, -⟩ | ⟨r', rest', hcons, hcase⟩⟩ := step_cases hstep
  · cases hpending.symm.trans hnil
  · cases hpending.symm.trans hcons
    rcases hcase with ⟨i, hd, -, rfl⟩ | ⟨f, -, -, rfl⟩
    · exact ⟨i, hd, rfl⟩
    · cases hvalid

/-- Settles O33: the step's result is the hash of the decoded operation, whose bits at or above `n` are 0, so it is below
`2^n`, the request's bank count. -/
theorem matrixHashResultInRange : Obligations.MatrixHashResultInRange := by
  intro s t r rest hr hsel hstep hvalid
  obtain ⟨i, hd, hresult⟩ := step_result_of_ready hr hstep hvalid
  obtain ⟨n, hcount, hbits⟩ := exists_width_of_sel_ne_one hsel hd r.highBits r.index
  have hlt : (hashOf i r.highBits r.index).toNat < 2 ^ n := Nat.lt_pow_two_of_testBit _ hbits
  exact ⟨_, hresult, hcount ▸ hlt, n, hcount, hbits⟩

end Sys2Proof.Proofs

/-! PROOFS. Repeated requests (20_memory.md R46): a step on a request at hand is determined by the request's own evaluation,
so presenting the request again repeats its result or its fault. -/

namespace Sys2Proof.Proofs

open Sys2Proof.Machine Sys2Proof.Laws Sys2Proof.Claims

theorem takeRequest_of_ready {s : State} {r : Request} {rest : List Request} (hr : Ready s r rest) :
    s.takeRequest = some (s.present r rest) := by
  obtain ⟨-, hpending⟩ := hr
  rw [State.takeRequest, hpending]

/-- A request that evaluates to a result completes with it: the step's next state in full. -/
theorem step_of_eval_ok {s : State} {r : Request} {rest : List Request} {v : HashedIndex} (hr : Ready s r rest)
    (he : eval r = .ok v) : step s = .next (evaluated (presented s r rest) v) := by
  rcases eval_cases r with ⟨i, hd, hev⟩ | ⟨f, -, hev⟩
  · obtain rfl : hashOf i r.highBits r.index = v := Except.ok.inj (hev.symm.trans he)
    simp only [step, hr.1, takeRequest_of_ready hr, present_opw, hd, exec_eq]
    rfl
  · cases hev.symm.trans he

/-- A request that evaluates to a fault has that fault taken, and the run is marked with it: the step's next state in
full. -/
theorem step_of_eval_error {s : State} {r : Request} {rest : List Request} {f : Fault} (hr : Ready s r rest)
    (he : eval r = .error f) : step s = .next (faulted (presented s r rest) f (faultCodeOf f)) := by
  rcases eval_cases r with ⟨i, -, hev⟩ | ⟨f', hd, hev⟩
  · cases hev.symm.trans he
  · obtain rfl : f' = f := Except.error.inj (hev.symm.trans he)
    simp only [step, hr.1, takeRequest_of_ready hr, present_opw, hd, State.takeFault, present_faultMark, Option.none_or]
    rfl

/-- After a completed evaluation the run is still unmarked, and its next request is the next of those still to come. -/
theorem ready_evaluated {s : State} {r r' : Request} {rest : List Request} {v : HashedIndex}
    (hr : Ready s r (r' :: rest)) : Ready (evaluated (presented s r (r' :: rest)) v) r' rest :=
  ⟨hr.1, rfl⟩

/-- Settles O14, by the two outcomes of the request's evaluation: a result leaves the repeated request at hand, and it
evaluates to that result again; a fault is the request's own, so every run that presents it takes the same. -/
theorem repeatedRequestRepeatsItsOutcome : Obligations.RepeatedRequestRepeatsItsOutcome := by
  intro s r rest hr
  cases he : eval r with
  | ok v =>
    refine ⟨_, step_of_eval_ok hr he, fun _ => ⟨v, rfl, step_of_eval_ok (ready_evaluated hr) he⟩, ?_⟩
    intro f hmark
    cases hr.1.symm.trans hmark
  | error f =>
    refine ⟨_, step_of_eval_error hr he, fun hmark => (Option.some_ne_none f hmark).elim, ?_⟩
    intro f' hmark s' rest' hr'
    exact ⟨_, step_of_eval_error hr' he, hmark⟩

end Sys2Proof.Proofs

/-! PROOFS. Illegal operation words (30_encoding.md R66, R67): the two matrix hashes refuse every bank count they do not
support, and the fault carries that count. -/

namespace Sys2Proof.Proofs

open Sys2Proof.Machine Sys2Proof.Laws Sys2Proof.Claims

/-- The counts the polynomial hash supports, as words and as numbers (00_scope.md R7). -/
theorem ipoly_supports_iff (bc : BankCount) : Algorithm.ipoly.supports bc = true ↔ bc.toNat ∈ ipolyCounts := by
  simp [Algorithm.supports, ipolyCounts, ← BitVec.toNat_inj, or_assoc]

theorem pae_supports_iff (bc : BankCount) : Algorithm.pae.supports bc = true ↔ bc = 32#32 :=
  beq_iff_eq

theorem decodeIpoly_of_not_mem {bc : BankCount} (h : bc.toNat ∉ ipolyCounts) :
    decodeIpoly bc = .error (.unsupportedBankCount bc) := by
  rcases decodeIpoly_cases bc with ⟨hsupported, -⟩ | ⟨-, hfault⟩
  · exact absurd ((ipoly_supports_iff bc).mp hsupported) h
  · exact hfault

theorem decodePae_of_ne {bc : BankCount} (h : bc ≠ 32#32) : decodePae bc = .error (.unsupportedBankCount bc) := by
  rcases decodePae_cases bc with ⟨hsupported, -⟩ | ⟨-, hfault⟩
  · exact absurd ((pae_supports_iff bc).mp hsupported) h
  · exact hfault

/-- Settles O4: `sel` picks the hash's own decoder, and the two matrix hashes' decoders refuse the counts they do not
support, while the bitwise hash's takes every count. -/
theorem illegalWordsRaiseUnsupportedBankCount : Obligations.IllegalWordsRaiseUnsupportedBankCount := by
  refine ⟨fun bc hbc => ?_, fun bc hbc => ?_, fun bc => ?_⟩
  · exact (decode_operationWord 0#2 bc).trans (decodeIpoly_of_not_mem hbc)
  · exact (decode_operationWord 2#2 bc).trans (decodePae_of_ne hbc)
  · exact decode_operationWord 1#2 bc

end Sys2Proof.Proofs

/-! PROOFS. The polynomial hash family (41_ipoly.md R84, R93 to R98). Its raw index is the index modulo the bank count, its
index part is invertible, and for 8, 16, 64 and 128 banks it is the identity; the six operations are read off these facts. -/

namespace Sys2Proof.Proofs

open Sys2Proof.Machine Sys2Proof.Laws Sys2Proof.Claims

/-! The raw index and the common form of the matrix hashes. -/

theorem rawIndex_eq_ofNat_mod (n : Nat) (idx : Index) : rawIndex n idx = BitVec.ofNat n (idx.toNat % 2 ^ n) := by
  apply BitVec.eq_of_toNat_eq
  simp [rawIndex]

/-- Two indices have one raw index exactly when they are of one class modulo `2^n`. -/
theorem rawIndex_eq_iff (n : Nat) (x y : Index) : rawIndex n x = rawIndex n y ↔ x.toNat % 2 ^ n = y.toNat % 2 ^ n := by
  rw [← BitVec.toNat_inj, rawIndex, rawIndex, BitVec.toNat_setWidth, BitVec.toNat_setWidth]

theorem getLsbD_rawIndex {n k : Nat} (hk : k < n) (idx : Index) : (rawIndex n idx).getLsbD k = idx.getLsbD k := by
  simp [rawIndex, hk]

/-- The zero-extension of a result to 32 bits loses nothing (20_memory.md R42). -/
theorem setWidth_32_inj {n : Nat} (hn : n ≤ 32) {x y : BitVec n} : x.setWidth 32 = y.setWidth 32 ↔ x = y := by
  rw [← BitVec.toNat_inj, BitVec.toNat_setWidth_of_le hn, BitVec.toNat_setWidth_of_le hn, BitVec.toNat_inj]

/-- With `hb = 0` the high part vanishes. -/
theorem matrixHash_zero_highBits {n : Nat} (high : Fin n → BitVec 64) (low : Fin n → BitVec n) (b : BitVec n) :
    matrixHash high low 0#64 b = (applyRows low b).setWidth 32 := by
  rw [matrixHash_eq, applyRows_zero, BitVec.zero_xor]

/-- For one `hb` the high part is a constant, so an invertible index part separates the raw indices. -/
theorem matrixHash_eq_iff {n : Nat} (hn : n ≤ 32) (high : Fin n → BitVec 64) {low : Fin n → BitVec n}
    (hlow : Function.Bijective (applyRows low)) (hb : HighBits) (x y : BitVec n) :
    matrixHash high low hb x = matrixHash high low hb y ↔ x = y := by
  rw [matrixHash_eq, matrixHash_eq, setWidth_32_inj hn, BitVec.xor_right_inj, hlow.injective.eq_iff]

/-! The polynomial hash. -/

theorem width_le_32 (b : IpolyBanks) : b.width ≤ 32 := by
  cases b <;> decide

/-- Every index part is invertible (41_ipoly.md R87): the open ones by their type, the others as the identity. -/
theorem ipolyIndex_bijective (b : IpolyBanks) : Function.Bijective (applyRows (Config.ipolyIndex b)) := by
  cases b with
  | b8 => exact identityRows_bijective 3
  | b16 => exact identityRows_bijective 4
  | b32 => exact Config.ipolyIndex32.bijective
  | b64 => exact identityRows_bijective 6
  | b128 => exact identityRows_bijective 7
  | b256 => exact Config.ipolyIndex256.bijective

/-- The counts whose index part the spec fixes (41_ipoly.md R84). -/
theorem ipolyIndex_eq_identityRows {b : IpolyBanks} (h : b.count ∈ [8, 16, 64, 128]) :
    Config.ipolyIndex b = identityRows b.width := by
  cases b with
  | b8 | b16 | b64 | b128 => rfl
  | b32 | b256 => exact absurd h (by decide)

/-- For one `hb` the results separate exactly the classes of indices modulo the bank count. -/
theorem ipolyHash_eq_iff (b : IpolyBanks) (hb : HighBits) (x y : Index) :
    ipolyHash b hb x = ipolyHash b hb y ↔ x.toNat % b.count = y.toNat % b.count := by
  rw [count_eq_two_pow_width, ← rawIndex_eq_iff]
  exact matrixHash_eq_iff (width_le_32 b) _ (ipolyIndex_bijective b) hb _ _

/-- With `hb = 0` the result is the index part applied to the index modulo the bank count. -/
theorem ipolyHash_zero_highBits (b : IpolyBanks) (idx : Index) :
    ipolyHash b 0#64 idx =
      (applyRows (Config.ipolyIndex b) (BitVec.ofNat b.width (idx.toNat % b.count))).setWidth 32 := by
  rw [count_eq_two_pow_width, ← rawIndex_eq_ofNat_mod]
  exact matrixHash_zero_highBits _ _ _

/-- The result bits as the spec writes them, with the pair of row masks of the table (41_ipoly.md R81). -/
theorem getLsbD_ipolyHash_eq_parity (b : IpolyBanks) (hb : HighBits) (idx : Index) (k : Fin b.width) :
    (ipolyHash b hb idx).getLsbD k =
      (parity (hb &&& (Config.ipolyTable b k).1) ^^ parity (idx.extractLsb' 0 b.width &&& (Config.ipolyTable b k).2)) := by
  rw [getLsbD_ipolyHash, dif_pos k.isLt, maskParity_eq_parity, maskParity_eq_parity, rawIndex,
    BitVec.setWidth_eq_extractLsb' (width_le_32 b)]
  rfl

section Identity

variable {b : IpolyBanks} (hid : Config.ipolyIndex b = identityRows b.width)
include hid

/-- An identity index part gives output bit `k` the index bit `k`. -/
theorem getLsbD_ipolyHash_of_identity (hb : HighBits) (idx : Index) (k : Fin b.width) :
    (ipolyHash b hb idx).getLsbD k = (parity (hb &&& (Config.ipolyTable b k).1) ^^ idx.getLsbD k) := by
  have hindex : maskParity (rawIndex b.width idx) (Config.ipolyIndex b k) = idx.getLsbD k := by
    rw [hid, identityRows, maskParity_twoPow, getLsbD_rawIndex k.isLt]
  rw [getLsbD_ipolyHash, dif_pos k.isLt, maskParity_eq_parity, hindex]
  rfl

theorem ipolyHash_zero_highBits_of_identity (idx : Index) :
    ipolyHash b 0#64 idx = BitVec.ofNat 32 (idx.toNat % b.count) := by
  have hlt : idx.toNat % b.count < 2 ^ b.width := count_eq_two_pow_width b ▸ Nat.mod_lt _ (by cases b <;> decide)
  rw [ipolyHash_zero_highBits, hid, applyRows_identityRows, BitVec.setWidth_ofNat_of_le_of_lt (width_le_32 b) hlt]

theorem ipolyHash_zero_highBits_of_lt {idx : Index} (hidx : idx.toNat < b.count) : ipolyHash b 0#64 idx = idx := by
  rw [ipolyHash_zero_highBits_of_identity hid, Nat.mod_eq_of_lt hidx, BitVec.ofNat_toNat, BitVec.setWidth_eq]

end Identity

/-- Settles O38: an identity index part has the rows, the output bits and the results at `hb = 0` of the identity. -/
theorem identityIndexParts : Obligations.IdentityIndexParts := by
  intro b hb
  have hid := ipolyIndex_eq_identityRows hb
  exact ⟨fun k => congrFun hid k, getLsbD_ipolyHash_of_identity hid, fun _ => ipolyHash_zero_highBits_of_lt hid⟩

/-! An operation's claims, from what its hash is. -/

/-- An operation completes with a value exactly when the value is its hash of the operand ports. -/
theorem exec_eq_evaluated_iff (i : Instr) (s : State) (v : HashedIndex) :
    exec i s = .next (evaluated s v) ↔ hashOf i s.highBits s.index = v := by
  rw [exec_eq]
  refine ⟨fun h => ?_, fun h => h ▸ rfl⟩
  exact Option.some.inj (congrArg State.hashedIndex (Host.Outcome.next.inj h))

theorem exec_eq_evaluated {i : Instr} {s : State} {v : HashedIndex} (h : hashOf i s.highBits s.index = v) :
    exec i s = .next (evaluated s v) :=
  (exec_eq_evaluated_iff i s v).mpr h

theorem completesWithBits_of_hashOf {i : Instr} {n : Nat} {bit : Fin n → HighBits → Index → Bool}
    (hbits : ∀ hb idx (k : Fin n), (hashOf i hb idx).getLsbD k = bit k hb idx)
    (habove : ∀ hb idx k, n ≤ k → (hashOf i hb idx).getLsbD k = false) : CompletesWithBits i n bit :=
  fun s => ⟨_, exec_eq_evaluated rfl, hbits s.highBits s.index, habove s.highBits s.index⟩

theorem separatesIndexMod_of_hashOf {i : Instr} {m : Nat}
    (h : ∀ hb (x y : Index), hashOf i hb x = hashOf i hb y ↔ x.toNat % m = y.toNat % m) : SeparatesIndexMod i m := by
  intro s t v w hhb hs ht
  rw [exec_eq_evaluated_iff] at hs ht
  rw [← hs, ← ht, hhb, h]

theorem gives_of_hashOf {i : Instr} {hb : HighBits} {idx : Index} {v : HashedIndex} (h : hashOf i hb idx = v) :
    Gives i hb idx v :=
  fun _ hhb hidx => exec_eq_evaluated (by rw [hhb, hidx, h])

section Operations

variable {i : Instr} {b : IpolyBanks} (hi : hashOf i = ipolyHash b)
include hi

/-- What the operations with an identity index part have in common (41_ipoly.md R93, R94, R96, R97); `x` is the index of the
rule's example. -/
theorem ipoly_completes_of_identity (hid : Config.ipolyIndex b = identityRows b.width) {x : Index}
    (hx : x.toNat < b.count) :
    CompletesWithBits i b.width (fun k hb idx => parity (hb &&& (Config.ipolyTable b k).1) ^^ idx.getLsbD k) ∧
      ZeroHighBitsGiveIndexMod i b.count ∧ SeparatesIndexMod i b.count ∧ Gives i 0#64 x x := by
  refine ⟨completesWithBits_of_hashOf ?_ ?_, fun s hs => exec_eq_evaluated ?_, separatesIndexMod_of_hashOf ?_,
    gives_of_hashOf ?_⟩
  all_goals rw [hi]
  · exact getLsbD_ipolyHash_of_identity hid
  · exact fun hb idx _ => getLsbD_ipolyHash_of_width_le b hb idx
  · rw [hs, ipolyHash_zero_highBits_of_identity hid]
  · exact ipolyHash_eq_iff b
  · exact ipolyHash_zero_highBits_of_lt hid hx

/-- What an operation has whatever its invertible index part is (41_ipoly.md R95, R98). -/
theorem ipoly_completes :
    CompletesWithBits i b.width (fun k hb idx =>
        parity (hb &&& (Config.ipolyTable b k).1) ^^ parity (idx.extractLsb' 0 b.width &&& (Config.ipolyTable b k).2)) ∧
      Function.Bijective (applyRows fun k => (Config.ipolyTable b k).2) ∧
      (∀ s : State, s.highBits = 0#64 →
        exec i s = .next (evaluated s
          ((applyRows (fun k => (Config.ipolyTable b k).2) (BitVec.ofNat b.width (s.index.toNat % b.count))).setWidth 32))) ∧
      SeparatesIndexMod i b.count ∧ Gives i 0#64 0#32 0#32 := by
  refine ⟨completesWithBits_of_hashOf ?_ ?_, ipolyIndex_bijective b, fun s hs => exec_eq_evaluated ?_,
    separatesIndexMod_of_hashOf ?_, gives_of_hashOf ?_⟩
  all_goals rw [hi]
  · exact getLsbD_ipolyHash_eq_parity b
  · exact fun hb idx _ => getLsbD_ipolyHash_of_width_le b hb idx
  · rw [hs]
    exact ipolyHash_zero_highBits b s.index
  · exact ipolyHash_eq_iff b
  · rw [ipolyHash_zero_highBits]
    simp

end Operations

/-- Settles O25: IPOLY8 is the polynomial hash of 8 banks, whose index part is the identity. -/
theorem ipoly8Completes : Obligations.Ipoly8Completes :=
  ⟨rfl, ipoly_completes_of_identity (b := .b8) rfl rfl (by decide)⟩

/-- Settles O26: IPOLY16 is the polynomial hash of 16 banks, whose index part is the identity. -/
theorem ipoly16Completes : Obligations.Ipoly16Completes :=
  ⟨rfl, ipoly_completes_of_identity (b := .b16) rfl rfl (by decide)⟩

/-- Settles O27: IPOLY32 is the polynomial hash of 32 banks, whose index part is only known to be invertible. -/
theorem ipoly32Completes : Obligations.Ipoly32Completes :=
  ⟨rfl, ipoly_completes (b := .b32) rfl⟩

/-- Settles O28: IPOLY64 is the polynomial hash of 64 banks, whose index part is the identity. -/
theorem ipoly64Completes : Obligations.Ipoly64Completes :=
  ⟨rfl, ipoly_completes_of_identity (b := .b64) rfl rfl (by decide)⟩

/-- Settles O29: IPOLY128 is the polynomial hash of 128 banks, whose index part is the identity. -/
theorem ipoly128Completes : Obligations.Ipoly128Completes :=
  ⟨rfl, ipoly_completes_of_identity (b := .b128) rfl rfl (by decide)⟩

/-- Settles O30: IPOLY256 is the polynomial hash of 256 banks, whose index part is only known to be invertible. -/
theorem ipoly256Completes : Obligations.Ipoly256Completes :=
  ⟨rfl, ipoly_completes (b := .b256) rfl⟩

end Sys2Proof.Proofs

/-! PROOFS. BITWISE raises no fault (42_bitwise.md R113): with `sel = 1` every bank count decodes to the bitwise hash, so
every such request evaluates to that hash's value. -/

namespace Sys2Proof.Proofs

open Sys2Proof.Machine Sys2Proof.Laws Sys2Proof.Claims

/-- The decoder checks nothing for `sel = 1` (30_encoding.md R64): the operation is BITWISE of the request's own count. -/
theorem decode_bitwise_request {r : Request} (hsel : r.sel = 1#2) : decode r.opw = .ok (.bitwise r.bankCount) := by
  rw [decode_request, hsel]
  rfl

theorem eval_bitwise_request {r : Request} (hsel : r.sel = 1#2) :
    eval r = .ok (bitwiseHash r.bankCount r.highBits r.index) := by
  rw [eval, decode_bitwise_request hsel]
  rfl

/-- Settles O11: the request evaluates to its bitwise hash, and a request that evaluates to a result completes with it. -/
theorem bitwiseNeverFaults : Obligations.BitwiseNeverFaults := by
  intro s r rest hr hsel
  exact ⟨bitwiseHash r.bankCount r.highBits r.index, step_of_eval_ok hr (eval_bitwise_request hsel)⟩

end Sys2Proof.Proofs

/-! PROOFS. The page-address-entropy hash (43_pae.md R126, R129, R135): PAE32 is the matrix hash of five bits whose index
part is only known to be invertible, and it is read off that form as the polynomial hashes are. -/

namespace Sys2Proof.Proofs

open Sys2Proof.Machine Sys2Proof.Laws Sys2Proof.Claims

/-- The result bits as the spec writes them, with the pair of row masks of the table (43_pae.md R126). -/
theorem getLsbD_paeHash_eq_parity (hb : HighBits) (idx : Index) (k : Fin 5) :
    (paeHash hb idx).getLsbD k =
      (parity (hb &&& (Config.paeTable k).1) ^^ parity (idx.extractLsb' 0 5 &&& (Config.paeTable k).2)) := by
  rw [getLsbD_paeHash, dif_pos k.isLt, maskParity_eq_parity, maskParity_eq_parity, rawIndex,
    BitVec.setWidth_eq_extractLsb' (by decide)]
  rfl

/-- With `hb = 0` the result is the index part applied to the index modulo 32. -/
theorem paeHash_zero_highBits (idx : Index) :
    paeHash 0#64 idx =
      (applyRows (fun k => (Config.paeTable k).2) (BitVec.ofNat 5 (idx.toNat % 32))).setWidth 32 := by
  rw [paeHash, matrixHash_zero_highBits, rawIndex_eq_ofNat_mod]
  rfl

/-- For one `hb` the results separate exactly the classes of indices modulo 32: `PB` is invertible (43_pae.md R129). -/
theorem paeHash_eq_iff (hb : HighBits) (x y : Index) :
    paeHash hb x = paeHash hb y ↔ x.toNat % 32 = y.toNat % 32 :=
  (matrixHash_eq_iff (by decide) _ Config.paeIndex.bijective hb _ _).trans (rawIndex_eq_iff 5 x y)

theorem paeHash_zero_zero : paeHash 0#64 0#32 = 0#32 := by
  rw [paeHash_zero_highBits]
  simp

/-- Settles O32: the operation completes with its hash of the operand ports, so each clause is a fact about that hash. -/
theorem pae32Completes : Obligations.Pae32Completes := by
  refine ⟨rfl, completesWithBits_of_hashOf getLsbD_paeHash_eq_parity ?above, fun s hs => exec_eq_evaluated ?zero,
    separatesIndexMod_of_hashOf paeHash_eq_iff, gives_of_hashOf paeHash_zero_zero⟩
  case above => exact fun hb idx _ => getLsbD_paeHash_of_five_le hb idx
  case zero =>
    rw [hs]
    exact paeHash_zero_highBits s.index

end Sys2Proof.Proofs

/-! PROOFS. Output bits written as lists of terms (43_pae.md R130): the list's row mask gives the function, so what leaves
the mask unchanged leaves the function unchanged. -/

namespace Sys2Proof.Proofs

open Sys2Proof.Machine Sys2Proof.Laws

/-- Each term adds its one-bit mask to the row mask, and the masked parity is additive in the mask. -/
theorem xorTerms_eq_parity {n : Nat} (v : BitVec n) (terms : List Nat) :
    xorTerms v terms = parity (v &&& termsMask n terms) := by
  rw [← maskParity_eq_parity]
  induction terms with
  | nil => exact (maskParity_zero_mask v).symm
  | cons j terms ih => rw [xorTerms, termsMask, maskParity_mask_xor, maskParity_twoPow, ih]

/-- A term listed twice contributes nothing to the row mask, wherever it stands. -/
theorem termsMask_append_pair (n j : Nat) (before terms : List Nat) :
    termsMask n (before ++ j :: j :: terms) = termsMask n (before ++ terms) := by
  induction before with
  | nil =>
    calc termsMask n (j :: j :: terms)
      _ = (BitVec.twoPow n j ^^^ BitVec.twoPow n j) ^^^ termsMask n terms := (BitVec.xor_assoc ..).symm
      _ = termsMask n terms := by rw [BitVec.xor_self, BitVec.zero_xor]
  | cons i before ih => exact congrArg (BitVec.twoPow n i ^^^ ·) ih

/-- Settles O44: the function of a list of terms is given by its row mask, in which a repeated term cancels. -/
theorem repeatedTermsCancel : Obligations.RepeatedTermsCancel := by
  intro n v terms
  refine ⟨xorTerms_eq_parity v terms, fun j before => ?_⟩
  have hmask := termsMask_append_pair n j before terms
  exact ⟨by rw [xorTerms_eq_parity, hmask, ← xorTerms_eq_parity], hmask⟩

end Sys2Proof.Proofs

/-! PROOFS. The two faults (60_exceptions.md R161, R162, R166): an evaluation's fault is its decoder's, so it is read off
`sel` and `bc` alone, and a step marks the run with exactly that fault. -/

namespace Sys2Proof.Proofs

open Sys2Proof.Machine Sys2Proof.Laws Sys2Proof.Claims

/-- The two cases of UnsupportedBankCount (60_exceptions.md R161), in the words of the statement. -/
def BankCountUnsupported (r : Request) : Prop :=
  r.sel = 0#2 ∧ r.bankCount.toNat ∉ ipolyCounts ∨ r.sel = 2#2 ∧ r.bankCount ≠ 32#32

theorem decodeIpoly_error_iff {bc : BankCount} {f : Fault} :
    decodeIpoly bc = .error f ↔ bc.toNat ∉ ipolyCounts ∧ f = .unsupportedBankCount bc := by
  rw [← ipoly_supports_iff]
  rcases decodeIpoly_cases bc with ⟨hsupported, i, hd⟩ | ⟨hunsupported, hd⟩
  · simp [hsupported, hd]
  · simp [hunsupported, hd, eq_comm]

theorem decodePae_error_iff {bc : BankCount} {f : Fault} :
    decodePae bc = .error f ↔ bc ≠ 32#32 ∧ f = .unsupportedBankCount bc := by
  rw [Ne, ← pae_supports_iff]
  rcases decodePae_cases bc with ⟨hsupported, hd⟩ | ⟨hunsupported, hd⟩
  · simp [hsupported, hd]
  · simp [hunsupported, hd, eq_comm]

/-- The decoder's faults on a request, in full: UnsupportedBankCount of its `bc` in the two cases of R161, and
UnsupportedSelect of its `sel` when that is 3. -/
theorem decode_error_iff {r : Request} {f : Fault} :
    decode r.opw = .error f ↔
      BankCountUnsupported r ∧ f = .unsupportedBankCount r.bankCount ∨ r.sel = 3#2 ∧ f = .unsupportedSelect r.sel := by
  rw [decode_request, BankCountUnsupported]
  rcases select_cases r.sel with h | h | h | h
  · simp [h, decodeIpoly_error_iff]
  · simp [h]
  · simp [h, decodePae_error_iff]
  · simp [h, eq_comm]

/-- An evaluation raises the fault its decoder answers and no other: the hashes raise none. -/
theorem eval_error_iff {r : Request} {f : Fault} : eval r = .error f ↔ decode r.opw = .error f := by
  rcases eval_cases r with ⟨i, hd, he⟩ | ⟨f', hd, he⟩
  · simp [hd, he]
  · simp [hd, he]

theorem faultOf_eq_some_iff {e : Except Fault HashedIndex} {f : Fault} : faultOf e = some f ↔ e = .error f := by
  cases e <;> simp [faultOf]

/-- The fault of a request depends on its operation word alone, not on its operands. -/
theorem faultOf_eval_congr {r r' : Request} (h : r.opw = r'.opw) : faultOf (eval r) = faultOf (eval r') := by
  ext f
  rw [faultOf_eq_some_iff, faultOf_eq_some_iff, eval_error_iff, eval_error_iff, h]

theorem faultOf_eval_eq_bankCount_iff {r : Request} {bc : BankCount} :
    faultOf (eval r) = some (.unsupportedBankCount bc) ↔ BankCountUnsupported r ∧ bc = r.bankCount := by
  simp [faultOf_eq_some_iff, eval_error_iff, decode_error_iff]

/-- A step on a request at hand shows the outcome of its evaluation: the mark, `fault_valid`, the result, and what the run
observes. -/
theorem exists_step_of_ready {s : State} {r : Request} {rest : List Request} (hr : Ready s r rest) :
    ∃ t, step s = .next t ∧ t.faultMark = faultOf (eval r) ∧ t.faultValid = validBitOf (eval r) ∧
      t.hashedIndex = resultOf (eval r) ∧ t.trace = s.trace ++ (resultOf (eval r)).toList := by
  cases he : eval r with
  | ok v => exact ⟨_, step_of_eval_ok hr he, hr.1, rfl, rfl, rfl⟩
  | error f => exact ⟨_, step_of_eval_error hr he, rfl, rfl, rfl, (List.append_nil _).symm⟩

/-- Settles O8: the step's mark is the evaluation's fault, which is UnsupportedBankCount, of the request's own count,
exactly in the two cases; the other outputs are those of a faulting evaluation. -/
theorem unsupportedBankCountExactCases : Obligations.UnsupportedBankCountExactCases := by
  intro s r rest hr
  obtain ⟨t, hstep, hmark, hvalid, hresult, htrace⟩ := exists_step_of_ready hr
  refine ⟨t, hstep, ?exactCases, ?outputs⟩
  case exactCases =>
    calc BankCountUnsupported r
      _ ↔ ∃ bc, BankCountUnsupported r ∧ bc = r.bankCount := by simp
      _ ↔ ∃ bc, t.faultMark = some (.unsupportedBankCount bc) := by simp only [hmark, faultOf_eval_eq_bankCount_iff]
  case outputs =>
    rintro ⟨bc, hbc⟩
    have hfault : faultOf (eval r) = some (.unsupportedBankCount bc) := hmark.symm.trans hbc
    obtain ⟨-, rfl⟩ := faultOf_eval_eq_bankCount_iff.mp hfault
    rw [faultOf_eq_some_iff.mp hfault] at hvalid hresult htrace
    exact ⟨hbc, hresult, hvalid, htrace.trans (List.append_nil _)⟩

/-- Settles O10: both marks are faults of one operation word, and the decoder has no third fault and none for `sel = 1`. -/
theorem noOperandIsAnError : Obligations.NoOperandIsAnError := by
  intro s s' r hb idx rest rest' hr hr'
  obtain ⟨t, hstep, hmark, -⟩ := exists_step_of_ready hr
  obtain ⟨t', hstep', hmark', -⟩ := exists_step_of_ready hr'
  have hsame : faultOf (eval r) = faultOf (eval { r with highBits := hb, index := idx }) := faultOf_eval_congr rfl
  refine ⟨t, t', hstep, hstep', hmark.trans (hsame.trans hmark'.symm), fun hsel => ?bitwise, ?onlyTwo⟩
  case bitwise => rw [hmark, eval_bitwise_request hsel, faultOf]
  case onlyTwo =>
    rw [hmark]
    cases he : eval r with
    | ok v => exact .inl rfl
    | error f =>
      rcases decode_error_iff.mp (eval_error_iff.mp he) with ⟨-, rfl⟩ | ⟨-, rfl⟩
      · exact .inr (.inl rfl)
      · exact .inr (.inr rfl)

end Sys2Proof.Proofs

/-! PROOFS. The operation word (30_encoding.md R60, R64, R65, R72): a word decodes to an instruction exactly when it is that
instruction's word, so the opcode rows and the two text forms are read off the encoder. -/

namespace Sys2Proof.Proofs

open Sys2Proof.Machine Sys2Proof.Laws

/-! Decoding and encoding. -/

theorem instr_wf (i : Instr) : i.wf = true := by
  cases i <;> rfl

/-- The BITWISE word by its fields (30_encoding.md R64, R68). -/
theorem encode_bitwise (bc : BankCount) : encode (.bitwise bc) = operationWord 1#2 bc := by
  rw [operationWord, BitVec.append_def, BitVec.setWidth'_eq]
  rfl

theorem decode_encode (i : Instr) : decode (encode i) = .ok i := by
  cases i with
  | bitwise bc => rw [encode_bitwise, decode_operationWord]; rfl
  | _ => rfl

theorem operationWord_of_decodeIpoly {bc : BankCount} {i : Instr} (h : decodeIpoly bc = .ok i) :
    operationWord 0#2 bc = encode i := by
  unfold decodeIpoly at h
  split_ifs at h with h8 h16 h32 h64 h128 h256 <;> cases h <;> subst bc <;> rfl

theorem encode_of_decode {w : OpWord} {i : Instr} (h : decode w = .ok i) : w = encode i := by
  rw [← operationWord_fields w] at h ⊢
  rw [decode_operationWord] at h
  split_ifs at h with h0 h1 h2
  · rw [h0, operationWord_of_decodeIpoly h]
  · cases h
    rw [h1, encode_bitwise]
  · obtain ⟨hcount, rfl⟩ := decodePae_ok h
    rw [h2, hcount]
    rfl

/-- Settles O2: every instruction's word decodes to it, and a word's two fields are those of the instruction it decodes
to. -/
theorem decodeInvertsEncode : Obligations.DecodeInvertsEncode := by
  intro w i
  constructor
  · exact fun h => ⟨instr_wf i, encode_of_decode h⟩
  · rintro ⟨-, rfl⟩
    exact decode_encode i

/-- Settles O1: the words are those of the table's operations. -/
theorem opcodeWordsDecode : Obligations.OpcodeWordsDecode := by
  exact ⟨decode_encode .ipoly8, decode_encode .ipoly16, decode_encode .ipoly32, decode_encode .ipoly64,
    decode_encode .ipoly128, decode_encode .ipoly256, decode_encode (.bitwise 7#32),
    decode_encode (.bitwise 0xFFFFFFFF#32), decode_encode .pae32⟩

/-- Settles O5: the two fields are the ones the decoder reads, and a word is its two fields. -/
theorem operationWordIsItsFields : Obligations.OperationWordIsItsFields :=
  ⟨fun sel bc => ⟨opSelect_operationWord sel bc, opBankCount_operationWord sel bc⟩, operationWord_fields⟩

/-! The rows of the opcode map. -/

theorem encodesInItsRow (i : Instr) : EncodesInItsRow.Statement i := by
  cases i with
  | ipoly8 => exact EncodesInItsRow.ipoly8
  | ipoly16 => exact EncodesInItsRow.ipoly16
  | ipoly32 => exact EncodesInItsRow.ipoly32
  | ipoly64 => exact EncodesInItsRow.ipoly64
  | ipoly128 => exact EncodesInItsRow.ipoly128
  | ipoly256 => exact EncodesInItsRow.ipoly256
  | bitwise bc => exact EncodesInItsRow.bitwise bc
  | pae32 => exact EncodesInItsRow.pae32

/-- The mask of the BITWISE row reads `sel` and nothing else. -/
theorem opSelect_of_bitwise_row {w : OpWord} (h : w &&& 0x300000000#34 = 0x100000000#34) : opSelect w = 1#2 := by
  calc opSelect w
    _ = opSelect w &&& opSelect 0x300000000#34 := (BitVec.and_allOnes (x := opSelect w)).symm
    _ = opSelect (w &&& 0x300000000#34) := (BitVec.extractLsb'_and ..).symm
    _ = 1#2 := by rw [h]; rfl

/-- A word that matches a row is the word of an instruction with the row's mnemonic. -/
theorem exists_encode_of_row {w : OpWord} {row : OpcodeRow} (hrow : row ∈ opcodeTable)
    (h : w &&& row.mask = row.pattern) : ∃ i, w = encode i ∧ mnemonicOf i = row.mnemonic := by
  have whole {p : OpWord} (hp : w &&& 0x3FFFFFFFF#34 = p) : w = p := (BitVec.and_allOnes (x := w)).symm.trans hp
  simp only [opcodeTable, List.mem_cons, List.not_mem_nil, or_false] at hrow
  rcases hrow with rfl | rfl | rfl | rfl | rfl | rfl | rfl | rfl
  · exact ⟨.ipoly8, whole h, rfl⟩
  · exact ⟨.ipoly16, whole h, rfl⟩
  · exact ⟨.ipoly32, whole h, rfl⟩
  · exact ⟨.ipoly64, whole h, rfl⟩
  · exact ⟨.ipoly128, whole h, rfl⟩
  · exact ⟨.ipoly256, whole h, rfl⟩
  · refine ⟨.bitwise (opBankCount w), ?_, rfl⟩
    rw [encode_bitwise, ← opSelect_of_bitwise_row h, operationWord_fields]
  · exact ⟨.pae32, whole h, rfl⟩

theorem row_eq_of_mnemonic_eq : ∀ row ∈ opcodeTable, ∀ row' ∈ opcodeTable, row.mnemonic = row'.mnemonic → row = row' := by
  decide

/-- Settles O3: the words that match a row are the words of the instructions with its mnemonic, and no two rows share a
mnemonic. -/
theorem opcodeRowsMatchDecode : Obligations.OpcodeRowsMatchDecode := by
  refine ⟨rfl, fun w row hrow => ⟨fun h => ?_, ?_⟩, fun w row hrow row' hrow' h h' => ?_⟩
  · obtain ⟨i, rfl, hname⟩ := exists_encode_of_row hrow h
    exact ⟨i, decode_encode i, hname⟩
  · rintro ⟨i, hd, hname⟩
    obtain ⟨-, hmatches⟩ := encodesInItsRow i
    rw [encode_of_decode hd]
    exact (hmatches row hrow).mpr hname.symm
  · obtain ⟨i, rfl, hname⟩ := exists_encode_of_row hrow h
    obtain ⟨-, hmatches⟩ := encodesInItsRow i
    have hname' : row'.mnemonic = mnemonicOf i := (hmatches row' hrow').mp h'
    exact row_eq_of_mnemonic_eq row hrow row' hrow' (hname.symm.trans hname'.symm)

/-! The two text forms. -/

theorem opw_eq_callWord_iff (r : Request) (c : Call) :
    r.opw = callWord c ↔ r.sel = selectOf c.algorithm ∧ r.bankCount = c.bankCount := by
  refine ⟨fun h => ⟨?_, ?_⟩, fun ⟨hsel, hcount⟩ => by rw [Request.opw, callWord, hsel, hcount]⟩
  · simpa [Request.opw, callWord] using congrArg opSelect h
  · simpa [Request.opw, callWord] using congrArg opBankCount h

/-- A mnemonic whose word is the word of a call denotes the same requests as the call. -/
theorem mnemonic_denotes_eq_call {i : Instr} {c : Call} (hword : encode i = callWord c) (hb idx : Operand) (r : Request) :
    (RequestText.mnemonic i hb idx).denotes r = (RequestText.call c.algorithm hb idx (some c.bankCount.toNat)).denotes r := by
  have hfields : (r.opw == encode i) =
      (r.sel == selectOf c.algorithm && Operand.admits (some c.bankCount.toNat) r.bankCount) := by
    have hcount : c.bankCount.toNat = r.bankCount.toNat ↔ r.bankCount = c.bankCount :=
      BitVec.toNat_inj.trans eq_comm
    rw [Bool.eq_iff_iff]
    simp [hword, opw_eq_callWord_iff, Operand.admits, hcount]
  rw [RequestText.denotes, RequestText.denotes, hfields]

theorem toNat_ofNat_count (b : IpolyBanks) : (BitVec.ofNat 32 b.count).toNat = b.count := by
  cases b <;> rfl

/-- Settles O45: each mnemonic's word is the word of the call with its bank count. -/
theorem callAndMnemonicDenoteTheSame : Obligations.CallAndMnemonicDenoteTheSame := by
  refine ⟨fun hb idx r b i hword => ?_, fun hb idx r bc => ?_, fun hb idx r => ?_⟩
  · rw [mnemonic_denotes_eq_call (c := ⟨.ipoly, BitVec.ofNat 32 b.count⟩) hword.symm, toNat_ofNat_count]
  · exact mnemonic_denotes_eq_call (c := ⟨.bitwise, bc⟩) (encode_bitwise bc) hb idx r
  · exact mnemonic_denotes_eq_call (c := ⟨.pae, 32#32⟩) rfl hb idx r

/-- Settles O46: the reader evaluated on each text. -/
theorem exampleTextsRead : Obligations.ExampleTextsRead := by
  unfold Obligations.ExampleTextsRead
  decide

end Sys2Proof.Proofs

/-! PROOFS. One step (44_selector.md R146 to R151, 60_exceptions.md R161 to R165, 70_reset_and_hazards.md R190): a step on a
request at hand leaves a state whose outputs and mark are the request's own evaluation, so each claim about a step is a fact
about that evaluation. -/

namespace Sys2Proof.Proofs

open Sys2Proof.Machine Sys2Proof.Laws Sys2Proof.Claims

/-! The ends of a run. -/

theorem step_of_marked {s : State} {f : Fault} (hm : s.faultMark = some f) : step s = .fault f := by
  rw [step, hm]

theorem step_of_endedSuccessfully {s : State} (h : s.EndedSuccessfully) : step s = .next s := by
  obtain ⟨hpending, hmark⟩ := h
  simp only [step, State.takeRequest, hpending, hmark]

/-- Settles O19: the mark is read before anything else. -/
theorem markedRunTakesNoEvaluation : Obligations.MarkedRunTakesNoEvaluation :=
  ⟨fun _ _ => step_of_marked, fun _ _ hstep => (step_cases hstep).1⟩

/-- Settles O20: with no request to take there is nothing to evaluate. -/
theorem endedRunStaysEnded : Obligations.EndedRunStaysEnded :=
  fun _ => step_of_endedSuccessfully

/-! The invariant. -/

theorem inv_evaluated {s : State} {r : Request} {rest : List Request} {v : HashedIndex} (hr : Ready s r rest)
    (he : eval r = .ok v) : (evaluated (presented s r rest) v).Inv where
  result := (congrArg resultOf he).symm
  valid := (congrArg validBitOf he).symm
  code := (congrArg codeOf he).symm
  mark := hr.1.trans (congrArg faultOf he).symm

theorem inv_faulted (s : State) {r : Request} (rest : List Request) {f : Fault} (he : eval r = .error f) :
    (faulted (presented s r rest) f (faultCodeOf f)).Inv where
  result := (congrArg resultOf he).symm
  valid := (congrArg validBitOf he).symm
  code := (congrArg codeOf he).symm
  mark := (congrArg faultOf he).symm

/-- A step on a request at hand leaves that request on the ports and the invariant in force, whatever the state was before;
the run observes the result, if there is one. -/
theorem exists_step_inv {s : State} {r : Request} {rest : List Request} (hr : Ready s r rest) :
    ∃ t, step s = .next t ∧ t.Inv ∧ t.request = r ∧ t.pending = rest ∧
      t.trace = s.trace ++ (resultOf (eval r)).toList := by
  cases he : eval r with
  | ok v => exact ⟨_, step_of_eval_ok hr he, inv_evaluated hr he, rfl, rfl, rfl⟩
  | error f => exact ⟨_, step_of_eval_error hr he, inv_faulted s rest he, rfl, rfl, (List.append_nil _).symm⟩

/-- Settles O17: an idle step changes nothing, and a step on a request brings the invariant about by itself. -/
theorem stepKeepsPortsAgreed : Obligations.StepKeepsPortsAgreed := by
  intro s t hinv hstep
  obtain ⟨hmark, ⟨-, rfl⟩ | ⟨r, rest, hpending, -⟩⟩ := step_cases hstep
  · exact hinv
  · obtain ⟨t', hstep', hinv', -⟩ := exists_step_inv ⟨hmark, hpending⟩
    cases hstep.symm.trans hstep'
    exact hinv'

/-- Settles O18: the ports hold the BITWISE request of zeros, which evaluates to 0. -/
theorem resetHasPortsAgreed : Obligations.ResetHasPortsAgreed :=
  ⟨rfl, rfl, rfl, rfl⟩

/-- Settles O13: both states show the evaluation of one request. -/
theorem outputsDependOnOwnRequestOnly : Obligations.OutputsDependOnOwnRequestOnly := by
  intro s s' r rest rest' hr hr'
  obtain ⟨t, hstep, hinv, rfl, -, htrace⟩ := exists_step_inv hr
  obtain ⟨t', hstep', hinv', hreq, -, htrace'⟩ := exists_step_inv hr'
  refine ⟨t, t', hstep, hstep', ?_, ?_, ?_, ?_, fun hvalid => ?completed⟩
  · rw [hinv.result, hinv'.result, hreq]
  · rw [hinv.valid, hinv'.valid, hreq]
  · rw [hinv.code, hinv'.code, hreq]
  · rw [hinv.mark, hinv'.mark, hreq]
  case completed =>
    have hresult := hinv.result
    rw [hinv.valid] at hvalid
    cases he : eval t.request with
    | ok v =>
      rw [he] at htrace htrace' hresult
      exact ⟨v, hresult, htrace, htrace'⟩
    | error f =>
      rw [he] at hvalid
      cases hvalid

/-- Settles O24: the state after reset is one of the two unmarked states of `OutputsDependOnOwnRequestOnly`. -/
theorem firstEvaluationAfterResetIsAnyEvaluation : Obligations.FirstEvaluationAfterResetIsAnyEvaluation := by
  refine ⟨rfl, rfl, rfl, fun s r rest hr => ?_⟩
  obtain ⟨t, t', hstep, hstep', hresult, hvalid, hcode, hmark, -⟩ :=
    outputsDependOnOwnRequestOnly { State.reset with pending := [r] } s r [] rest ⟨rfl, rfl⟩ hr
  exact ⟨t, t', hstep, hstep', hresult, hvalid, hcode, hmark⟩

/-! The fault codes (60_exceptions.md R163). -/

section FaultCodes

variable (e : Except Fault HashedIndex)

theorem codeOf_ne_three : codeOf e ≠ 3#2 := by
  rcases e with (_ | _) | _ <;> simp [codeOf, faultCodeOf]

theorem validBitOf_eq_false_iff : validBitOf e = false ↔ codeOf e = 0#2 := by
  rcases e with (_ | _) | _ <;> simp [validBitOf, codeOf, faultCodeOf]

theorem codeOf_eq_zero_iff : codeOf e = 0#2 ↔ faultOf e = none := by
  rcases e with (_ | _) | _ <;> simp [faultOf, codeOf, faultCodeOf]

theorem codeOf_eq_one_iff : codeOf e = 1#2 ↔ ∃ bc, faultOf e = some (.unsupportedBankCount bc) := by
  rcases e with (_ | _) | _ <;> simp [faultOf, codeOf, faultCodeOf]

theorem codeOf_eq_two_iff : codeOf e = 2#2 ↔ ∃ sel, faultOf e = some (.unsupportedSelect sel) := by
  rcases e with (_ | _) | _ <;> simp [faultOf, codeOf, faultCodeOf]

end FaultCodes

/-- Settles O21: `fault_valid`, `fault_code` and the mark are three readings of one evaluation. -/
theorem stepDrivesTheFaultCodes : Obligations.StepDrivesTheFaultCodes := by
  intro s r rest hr
  obtain ⟨t, hstep, hinv, -⟩ := exists_step_inv hr
  refine ⟨t, hstep, ?_⟩
  rw [hinv.valid, hinv.code, hinv.mark]
  exact ⟨codeOf_ne_three _, validBitOf_eq_false_iff _, codeOf_eq_zero_iff _, codeOf_eq_one_iff _, codeOf_eq_two_iff _⟩

/-- Settles O7: the decoder's fault is the evaluation's, whose step and code are known, and the mark stops the next step. -/
theorem faultingRequestSetsMarkThenStops : Obligations.FaultingRequestSetsMarkThenStops := by
  intro s r rest f hr hd
  refine ⟨_, step_of_eval_error hr (eval_error_iff.mpr hd), step_of_marked rfl, ?_⟩
  rcases decode_error_iff.mp hd with ⟨-, rfl⟩ | ⟨-, rfl⟩
  · exact .inl ⟨rfl, rfl⟩
  · exact .inr ⟨rfl, rfl⟩

theorem faultOf_eval_eq_select_iff {r : Request} {sel : Select} :
    faultOf (eval r) = some (.unsupportedSelect sel) ↔ r.sel = 3#2 ∧ sel = r.sel := by
  simp [faultOf_eq_some_iff, eval_error_iff, decode_error_iff]

/-- Settles O9: the mark is the evaluation's fault, and that is UnsupportedSelect for `sel = 3` alone, whatever `bc` is. -/
theorem reservedSelectFaultsBeforeBankCount : Obligations.ReservedSelectFaultsBeforeBankCount := by
  intro s r rest hr
  obtain ⟨t, hstep, hinv, rfl, -⟩ := exists_step_inv hr
  refine ⟨t, hstep, ?_, fun hsel => ?_⟩
  · simp [hinv.mark, faultOf_eval_eq_select_iff]
  · have he : eval t.request = .error (.unsupportedSelect 3#2) :=
      faultOf_eq_some_iff.mp (faultOf_eval_eq_select_iff.mpr ⟨hsel, hsel.symm⟩)
    exact Host.Outcome.next.inj (hstep.symm.trans (step_of_eval_error hr he))

/-! Completed evaluations. -/

/-- A step completes with a result exactly when the request evaluates to it. -/
theorem step_eq_evaluated_iff {s : State} {r : Request} {rest : List Request} {v : HashedIndex} (hr : Ready s r rest) :
    step s = .next (evaluated (presented s r rest) v) ↔ eval r = .ok v := by
  refine ⟨fun hstep => ?_, step_of_eval_ok hr⟩
  obtain ⟨t, hstep', hinv, hreq, -⟩ := exists_step_inv hr
  cases hstep.symm.trans hstep'
  have hresult : some v = resultOf (eval r) := hinv.result
  cases he : eval r with
  | ok w => rw [Option.some.inj (hresult.trans (congrArg resultOf he))]
  | error f => cases hresult.trans (congrArg resultOf he)

/-- Settles O6: every operation completes with the hash it names, and so does the step that decodes to it. -/
theorem stepRunsTheDecodedOperation : Obligations.StepRunsTheDecodedOperation := by
  intro s r rest i hr hd
  have he : eval r = .ok (hashOf i r.highBits r.index) := by
    rw [eval, show decode r.opw = .ok i from hd]
  exact ⟨instr_wf i, (step_of_eval_ok hr he).trans (exec_eq i _).symm⟩

theorem count_injective : Function.Injective IpolyBanks.count := by
  intro b b'
  cases b <;> cases b' <;> decide

theorem count_mem_ipolyCounts (b : IpolyBanks) : b.count ∈ ipolyCounts := by
  cases b <;> decide

/-- A supported count of the polynomial hash decodes to the operation of that count. -/
theorem decodeIpoly_of_count {bc : BankCount} {b : IpolyBanks} (h : bc.toNat = b.count) :
    ∃ i, decodeIpoly bc = .ok i ∧ hashOf i = ipolyHash b := by
  have hsupported := (ipoly_supports_iff bc).mpr (h ▸ count_mem_ipolyCounts b)
  rcases decodeIpoly_cases bc with ⟨-, i, hd⟩ | ⟨hunsupported, -⟩
  · obtain ⟨b', hcount, hhash⟩ := decodeIpoly_ok hd
    exact ⟨i, hd, hhash.trans (congrArg ipolyHash (count_injective (hcount.symm.trans h)))⟩
  · cases hsupported.symm.trans hunsupported

theorem eval_ipoly_request {r : Request} {b : IpolyBanks} (hsel : r.sel = 0#2) (hcount : r.bankCount.toNat = b.count) :
    eval r = .ok (ipolyHash b r.highBits r.index) := by
  obtain ⟨i, hd, hhash⟩ := decodeIpoly_of_count hcount
  rw [eval, decode_request, if_pos hsel, hd, ← hhash]

theorem eval_pae_request {r : Request} (hsel : r.sel = 2#2) (hcount : r.bankCount.toNat = 32) :
    eval r = .ok (paeHash r.highBits r.index) := by
  have hbc : r.bankCount = 32#32 := BitVec.eq_of_toNat_eq hcount
  rw [eval, decode_request, hsel, hbc]
  rfl

/-- Settles O12: with the selected hash's own count the request evaluates to that hash, and the step completes with it. -/
theorem selectorEvaluatesTheSelectedHash : Obligations.SelectorEvaluatesTheSelectedHash := by
  intro s r rest hr
  refine ⟨fun hsel b hcount => ?_, fun hsel => ?_, fun hsel hcount => ?_⟩
  · exact step_of_eval_ok hr (eval_ipoly_request hsel hcount)
  · exact step_of_eval_ok hr (eval_bitwise_request hsel)
  · exact step_of_eval_ok hr (eval_pae_request hsel hcount)

end Sys2Proof.Proofs

/-! PROOFS. The hashes as functions (41_ipoly.md R81, R84 to R91, 42_bitwise.md R111 to R120, 43_pae.md R126 to R134). What
the polynomial hash and the page-address-entropy hash have in common is proved once, for any hash with the property it
turns on; the bitwise hash is read off its result bits. -/

namespace Sys2Proof.Proofs

open Sys2Proof.Machine Sys2Proof.Laws Sys2Proof.Claims

/-- Settles O43: the six counts are powers of two with the width as exponent. -/
theorem indexWidthIsCeilLog2 : Obligations.IndexWidthIsCeilLog2 := by
  refine ⟨fun b => ⟨?_, count_eq_two_pow_width b⟩, rfl, rfl, rfl, rfl, rfl, rfl⟩
  rw [count_eq_two_pow_width, Nat.clog_pow 2 _ Nat.one_lt_two]

/-! The matrix hashes read the index modulo the bank count. -/

theorem toNat_ofNat_of_lt {x : Nat} (hx : x < 2 ^ 32) : (BitVec.ofNat 32 x).toNat = x := by
  rw [BitVec.toNat_ofNat, Nat.mod_eq_of_lt hx]

theorem toNat_ofNat_mod (idx : Index) (m : Nat) : (BitVec.ofNat 32 (idx.toNat % m)).toNat = idx.toNat % m :=
  toNat_ofNat_of_lt ((Nat.mod_le _ _).trans_lt idx.isLt)

/-- Settles O34: an index and its remainder are of one class modulo the bank count, so they have one hash. -/
theorem matrixHashIgnoresHighIndexBits : Obligations.MatrixHashIgnoresHighIndexBits := by
  refine ⟨fun b hb idx => ?_, fun hb idx => ?_⟩
  · rw [ipolyHash_eq_iff, toNat_ofNat_mod, Nat.mod_mod]
  · rw [paeHash_eq_iff, toNat_ofNat_mod, Nat.mod_mod]

/-! Linearity. -/

theorem matrixHash_xor {n : Nat} (high : Fin n → BitVec 64) (low : Fin n → BitVec n) (hb hb' : HighBits) (x y : BitVec n) :
    matrixHash high low (hb ^^^ hb') (x ^^^ y) = matrixHash high low hb x ^^^ matrixHash high low hb' y := by
  simp only [matrixHash_eq, applyRows_xor, ← BitVec.setWidth_xor]
  ac_rfl

theorem ipolyHash_xor (b : IpolyBanks) (hb hb' : HighBits) (idx idx' : Index) :
    ipolyHash b (hb ^^^ hb') (idx ^^^ idx') = ipolyHash b hb idx ^^^ ipolyHash b hb' idx' := by
  rw [ipolyHash, rawIndex_xor, matrixHash_xor]
  rfl

theorem paeHash_xor (hb hb' : HighBits) (idx idx' : Index) :
    paeHash (hb ^^^ hb') (idx ^^^ idx') = paeHash hb idx ^^^ paeHash hb' idx' := by
  rw [paeHash, rawIndex_xor, matrixHash_xor]
  rfl

/-- A hash that is linear in both operands at once adds to the hash at `hb = 0` a constant that depends on `hb` alone: the
hash of the index 0. -/
theorem eq_zero_highBits_xor {hash : HighBits → Index → HashedIndex}
    (hlinear : ∀ hb hb' idx idx', hash (hb ^^^ hb') (idx ^^^ idx') = hash hb idx ^^^ hash hb' idx') (hb : HighBits)
    (idx : Index) : hash hb idx = hash 0#64 idx ^^^ hash hb 0#32 := by
  rw [← hlinear, BitVec.zero_xor, BitVec.xor_zero]

theorem ipolyHash_zero_zero (b : IpolyBanks) : ipolyHash b 0#64 0#32 = 0#32 := by
  rw [ipolyHash_zero_highBits]
  simp

theorem parity_zero (n : Nat) : parity 0#n = false := by
  rw [← BitVec.and_zero (x := 0#n), ← maskParity_eq_parity, maskParity_zero]

/-- Settles O35: the constant is the hash of the index 0, whose index part vanishes. -/
theorem ipolyHashIsLinear : Obligations.IpolyHashIsLinear := by
  intro b
  refine ⟨ipolyHash_xor b, ipolyHash_zero_zero b, fun hb => ⟨ipolyHash b hb 0#32, fun k => ?_, fun k => ?_, ?_⟩⟩
  · simp [getLsbD_ipolyHash_eq_parity, parity_zero]
  · exact getLsbD_ipolyHash_of_width_le b hb 0#32
  · exact eq_zero_highBits_xor (ipolyHash_xor b) hb

/-- Settles O36: as for the polynomial hash, the constant is the hash of the index 0. -/
theorem paeHashIsLinear : Obligations.PaeHashIsLinear := by
  refine ⟨paeHash_xor, paeHash_zero_zero, fun hb => ⟨paeHash hb 0#32, fun k => ?_, fun k => ?_, ?_⟩⟩
  · simp [getLsbD_paeHash_eq_parity, parity_zero]
  · exact getLsbD_paeHash_of_five_le hb 0#32
  · exact eq_zero_highBits_xor paeHash_xor hb

/-! Bijectivity. -/

/-- A hash that separates the classes modulo `m` and has its results below `m` takes each of them at exactly one index
below `m`: a one-to-one map of `m` numbers into themselves is onto. -/
theorem existsUnique_index {hash : Index → HashedIndex} {m : Nat} (hm : m ≤ 2 ^ 32)
    (hseparates : ∀ x y, hash x = hash y ↔ x.toNat % m = y.toNat % m) (hlt : ∀ x, (hash x).toNat < m) {v : Nat}
    (hv : v < m) : ∃! i, i < m ∧ (hash (BitVec.ofNat 32 i)).toNat = v := by
  have hinj : ∀ i < m, ∀ j < m, (hash (BitVec.ofNat 32 i)).toNat = (hash (BitVec.ofNat 32 j)).toNat → i = j := by
    intro i hi j hj h
    have hmod := (hseparates _ _).mp (BitVec.eq_of_toNat_eq h)
    rwa [toNat_ofNat_of_lt (hi.trans_le hm), toNat_ofNat_of_lt (hj.trans_le hm), Nat.mod_eq_of_lt hi,
      Nat.mod_eq_of_lt hj] at hmod
  have hinjective : Function.Injective fun i : Fin m => (⟨_, hlt (BitVec.ofNat 32 i)⟩ : Fin m) :=
    fun i j h => Fin.ext (hinj i i.isLt j j.isLt (Fin.mk.inj h))
  obtain ⟨i, hi⟩ := Finite.surjective_of_injective hinjective ⟨v, hv⟩
  have hi' : (hash (BitVec.ofNat 32 i)).toNat = v := Fin.mk.inj hi
  exact ⟨i, ⟨i.isLt, hi'⟩, fun j ⟨hj, hjv⟩ => hinj j hj i i.isLt (hjv.trans hi'.symm)⟩

theorem ipolyHash_lt (b : IpolyBanks) (hb : HighBits) (idx : Index) : (ipolyHash b hb idx).toNat < b.count := by
  rw [count_eq_two_pow_width]
  exact Nat.lt_pow_two_of_testBit _ fun _ => getLsbD_ipolyHash_of_width_le b hb idx

theorem paeHash_lt (hb : HighBits) (idx : Index) : (paeHash hb idx).toNat < 32 :=
  Nat.lt_pow_two_of_testBit (n := 5) _ fun _ => getLsbD_paeHash_of_five_le hb idx

/-- Settles O37: both hashes separate the classes modulo their bank count and stay below it. -/
theorem matrixHashesPermuteTheBanks : Obligations.MatrixHashesPermuteTheBanks := by
  refine ⟨fun b hb v hv => ?_, fun hb v hv => ?_⟩
  · exact existsUnique_index (by cases b <;> decide) (ipolyHash_eq_iff b hb) (ipolyHash_lt b hb) hv
  · exact existsUnique_index (by decide) (paeHash_eq_iff hb) (paeHash_lt hb) hv

/-! Cross-terms. -/

/-- Bit `j` of row `k` is output bit `k` of the unit vector `j`, so the identity matrix alone is the identity map. -/
theorem rows_eq_identityRows_iff {n : Nat} (rows : Fin n → BitVec n) :
    rows = identityRows n ↔ ∀ x, applyRows rows x = x := by
  refine ⟨fun h x => by rw [h, applyRows_identityRows], fun h => ?_⟩
  funext k
  refine BitVec.eq_of_getLsbD_eq fun j hj => ?_
  have hrow : (applyRows rows (BitVec.twoPow n j)).getLsbD k = (rows k).getLsbD j := by
    rw [getLsbD_applyRows, dif_pos k.isLt, maskParity_eq_parity, BitVec.and_comm, ← maskParity_eq_parity,
      maskParity_twoPow]
  rw [← hrow, h, identityRows, BitVec.getLsbD_twoPow, BitVec.getLsbD_twoPow]
  simp [hj, eq_comm]

/-- An index part of 32 banks differs from the identity exactly when some index below 32 is not its own hash at `hb = 0`. -/
theorem rows_ne_identityRows_iff {rows : Fin 5 → BitVec 5} {hash : Index → HashedIndex}
    (hhash : ∀ idx, hash idx = (applyRows rows (BitVec.ofNat 5 (idx.toNat % 32))).setWidth 32) :
    rows ≠ identityRows 5 ↔ ∃ idx : Index, idx.toNat < 32 ∧ hash idx ≠ idx := by
  have hfix (x : BitVec 5) : hash (x.setWidth 32) = x.setWidth 32 ↔ applyRows rows x = x := by
    rw [hhash, BitVec.toNat_setWidth_of_le (by decide), Nat.mod_eq_of_lt x.isLt, BitVec.ofNat_toNat, BitVec.setWidth_eq,
      setWidth_32_inj (by decide)]
  rw [Ne, rows_eq_identityRows_iff, not_forall]
  constructor
  · rintro ⟨x, hx⟩
    refine ⟨x.setWidth 32, ?_, fun h => hx ((hfix x).mp h)⟩
    rw [BitVec.toNat_setWidth_of_le (by decide)]
    exact x.isLt
  · rintro ⟨idx, hidx, hne⟩
    have hback : (idx.setWidth 5).setWidth 32 = idx := BitVec.eq_of_toNat_eq (by simpa using by omega)
    exact ⟨idx.setWidth 5, fun h => hne (by rw [← hback]; exact (hfix _).mpr h)⟩

/-- Settles O42: at `hb = 0` each hash of 32 banks is its index part alone. -/
theorem crossTermsMoveSomeIndex : Obligations.CrossTermsMoveSomeIndex :=
  ⟨rows_ne_identityRows_iff (ipolyHash_zero_highBits .b32), rows_ne_identityRows_iff paeHash_zero_highBits⟩

/-! The bitwise hash. -/

theorem bitwiseHash_one_bank (hb : HighBits) (idx : Index) : bitwiseHash 1#32 hb idx = idx := by
  refine BitVec.eq_of_getLsbD_eq fun k _ => ?_
  simp [getLsbD_bitwiseHash]

/-- `bc - 1` wraps to all ones (decision D6). -/
theorem bitwiseHash_zero_banks (hb : HighBits) (idx : Index) : bitwiseHash 0#32 hb idx = idx ^^^ hb.extractLsb' 0 32 := by
  refine BitVec.eq_of_getLsbD_eq fun k hk => ?_
  have hmask : (0#32 - 1#32).getLsbD k = true := by
    rw [show 0#32 - 1#32 = BitVec.allOnes 32 from rfl, BitVec.getLsbD_allOnes, decide_eq_true hk]
  rw [getLsbD_bitwiseHash, hmask]
  simp [hk]

theorem bitwiseHash_zero_highBits (bc : BankCount) (idx : Index) : bitwiseHash bc 0#64 idx = idx := by
  refine BitVec.eq_of_getLsbD_eq fun k _ => ?_
  simp [getLsbD_bitwiseHash]

theorem bitwiseHash_xor (bc : BankCount) (hb hb' : HighBits) (idx idx' : Index) :
    bitwiseHash bc (hb ^^^ hb') (idx ^^^ idx') = bitwiseHash bc hb idx ^^^ bitwiseHash bc hb' idx' := by
  refine BitVec.eq_of_getLsbD_eq fun k _ => ?_
  simp only [getLsbD_bitwiseHash, BitVec.getLsbD_xor, Bool.and_xor_distrib_right, Bool.xor_assoc, Bool.xor_left_comm]

/-- Settles O41: with `bc = 1` or `hb = 0` nothing is masked in, with `bc = 0` all of `hb[31:0]` is, and every bit of the
hash is linear. -/
theorem bitwiseMaskCorners : Obligations.BitwiseMaskCorners :=
  ⟨bitwiseHash_zero_banks, bitwiseHash_one_bank, bitwiseHash_zero_highBits, bitwiseHash_xor, by decide⟩

theorem getLsbD_twoPow_sub_one {n : Nat} (hn : n ≤ 31) (k : Nat) :
    (BitVec.twoPow 32 n - 1#32).getLsbD k = decide (k < n) := by
  have hpow : 2 ^ n ≤ 2 ^ 31 := Nat.pow_le_pow_right (by decide) hn
  have hpos : 0 < 2 ^ n := Nat.two_pow_pos n
  have htoNat : (BitVec.twoPow 32 n - 1#32).toNat = 2 ^ n - 1 := by
    rw [BitVec.toNat_sub, BitVec.toNat_twoPow_of_lt (by omega), BitVec.toNat_ofNat]
    omega
  rw [BitVec.getLsbD, htoNat, Nat.testBit_two_pow_sub_one]

/-- For `bc = 2^n` the mask keeps the bits of `hb` below `n` (42_bitwise.md R114). -/
theorem getLsbD_bitwiseHash_twoPow {n : Nat} (hn : n ≤ 31) (hb : HighBits) (idx : Index) (k : Nat) :
    (bitwiseHash (BitVec.twoPow 32 n) hb idx).getLsbD k = (idx.getLsbD k ^^ (hb.getLsbD k && decide (k < n))) := by
  rw [getLsbD_bitwiseHash, getLsbD_twoPow_sub_one hn]

theorem getLsbD_bitwiseHash_twoPow_of_le {n k : Nat} (hn : n ≤ 31) (hk : n ≤ k) (hb : HighBits) (idx : Index) :
    (bitwiseHash (BitVec.twoPow 32 n) hb idx).getLsbD k = idx.getLsbD k := by
  simp [getLsbD_bitwiseHash_twoPow hn, Nat.not_lt_of_le hk]

theorem bitwiseHash_twoPow_lt {n : Nat} (hn : n ≤ 31) (hb : HighBits) {idx : Index} (hidx : idx.toNat < 2 ^ n) :
    (bitwiseHash (BitVec.twoPow 32 n) hb idx).toNat < 2 ^ n := by
  refine Nat.lt_pow_two_of_testBit _ fun k hk => ?_
  calc (bitwiseHash (BitVec.twoPow 32 n) hb idx).getLsbD k
    _ = idx.getLsbD k := getLsbD_bitwiseHash_twoPow_of_le hn hk hb idx
    _ = false := Nat.testBit_lt_two_pow (hidx.trans_le (Nat.pow_le_pow_right (by decide) hk))

/-- Settles O39: the mask keeps the bits below `n` only, so those at or above `n` are the index's. -/
theorem bitwiseRangeForPowersOfTwo : Obligations.BitwiseRangeForPowersOfTwo :=
  ⟨fun _ hb _ hn => bitwiseHash_twoPow_lt hn hb, fun _ _ hb idx hn hk => getLsbD_bitwiseHash_twoPow_of_le hn hk hb idx,
    by decide⟩

/-- The bank count of a power of two, as a range for its indices. -/
theorem bitwiseHash_lt_of_powerOfTwo {bc : BankCount} (hbc : Safety.PowerOfTwoBanks bc) (hb : HighBits) {idx : Index}
    (hidx : idx.toNat < bc.toNat) : (bitwiseHash bc hb idx).toNat < bc.toNat := by
  obtain ⟨n, hn, rfl⟩ := hbc
  rw [BitVec.toNat_twoPow_of_lt (by omega)] at hidx ⊢
  exact bitwiseHash_twoPow_lt hn hb hidx

/-- The same mask XORed in twice cancels. -/
theorem bitwiseHash_involutive (bc : BankCount) (hb : HighBits) : Function.Involutive (bitwiseHash bc hb) := by
  intro idx
  rw [bitwiseHash, bitwiseHash, BitVec.xor_assoc, BitVec.xor_self, BitVec.xor_zero]

/-- Settles O40: the only index with the hash `v` is the hash of `v`, which is in range when `v` is. -/
theorem bitwiseIsItsOwnInverse : Obligations.BitwiseIsItsOwnInverse := by
  intro bc hb
  have hinv := bitwiseHash_involutive bc hb
  refine ⟨hinv, hinv.bijective, fun hbc v hv => ⟨bitwiseHash bc hb v, ⟨?_, hinv v⟩, ?_⟩⟩
  · exact bitwiseHash_lt_of_powerOfTwo hbc hb hv
  · rintro idx ⟨-, rfl⟩
    exact (hinv idx).symm

theorem completesWithBits_bitwise {bc : BankCount} {bit : Fin 32 → HighBits → Index → Bool}
    (hbits : ∀ hb idx (k : Fin 32), (bitwiseHash bc hb idx).getLsbD k = bit k hb idx) :
    CompletesWithBits (.bitwise bc) 32 bit :=
  completesWithBits_of_hashOf hbits fun hb idx _ hk => BitVec.getLsbD_of_ge (bitwiseHash bc hb idx) _ hk

/-- Settles O31: the word is that of `sel = 1` and `bc`, and each clause about the result is a fact about the hash. -/
theorem bitwiseCompletes : Obligations.BitwiseCompletes := by
  refine ⟨fun bc => ⟨?_, ?_, EncodesInItsRow.bitwise_top_bits bc⟩, fun bc => ?_, fun hb idx => ?_, fun hb idx => ?_,
    fun n hn => ?_, ⟨0#64, 32#32, 32#32, gives_of_hashOf (by decide), by decide, by decide⟩, gives_of_hashOf (by decide)⟩
  · rw [encode_bitwise]
    exact opSelect_operationWord 1#2 bc
  · rw [encode_bitwise]
    exact opBankCount_operationWord 1#2 bc
  · exact completesWithBits_bitwise fun hb idx k => getLsbD_bitwiseHash bc hb idx k
  · exact gives_of_hashOf (bitwiseHash_one_bank hb idx)
  · exact gives_of_hashOf (bitwiseHash_zero_banks hb idx)
  · exact completesWithBits_bitwise fun hb idx k => getLsbD_bitwiseHash_twoPow hn hb idx k

end Sys2Proof.Proofs

/-! PROOFS. Runs (60_exceptions.md R179, 20_memory.md R48, 44_selector.md R148, 70_reset_and_hazards.md R192): the supported
requests are those that evaluate to a result, and a run steps through them to the observation of its list of requests. -/

namespace Sys2Proof.Proofs

open Sys2Proof.Machine Sys2Proof.Laws Sys2Proof.Claims

/-! Supported requests. -/

/-- A request is supported exactly when it raises neither fault. -/
theorem supported_iff (r : Request) : Safety.Supported r ↔ ¬ BankCountUnsupported r ∧ r.sel ≠ 3#2 := by
  have hexists : Safety.Supported r ↔ (r.sel = 0#2 ∧ r.bankCount.toNat ∈ ipolyCounts) ∨ r.sel = 1#2 ∨
      (r.sel = 2#2 ∧ r.bankCount = 32#32) := by
    rw [← ipoly_supports_iff, ← pae_supports_iff]
    constructor
    · rintro ⟨_ | _ | _, hsel, hsupports⟩
      · exact .inl ⟨hsel, hsupports⟩
      · exact .inr (.inl hsel)
      · exact .inr (.inr ⟨hsel, hsupports⟩)
    · rintro (⟨hsel, hsupports⟩ | hsel | ⟨hsel, hsupports⟩)
      · exact ⟨.ipoly, hsel, hsupports⟩
      · exact ⟨.bitwise, hsel, rfl⟩
      · exact ⟨.pae, hsel, hsupports⟩
  rw [hexists, BankCountUnsupported]
  rcases select_cases r.sel with h | h | h | h <;> simp [h]

theorem supported_iff_no_fault (r : Request) : Safety.Supported r ↔ ∀ f, eval r ≠ .error f := by
  rw [supported_iff]
  simp [eval_error_iff, decode_error_iff, not_or, forall_and]

theorem supported_iff_eval_ok (r : Request) : Safety.Supported r ↔ ∃ v, eval r = .ok v := by
  rw [supported_iff_no_fault]
  cases eval r <;> simp

theorem exists_fault_of_not_supported {r : Request} (h : ¬ Safety.Supported r) : ∃ f, eval r = .error f := by
  simpa [supported_iff_no_fault] using h

/-- Whether a request is supported depends on its operation word alone. -/
theorem supported_congr {r r' : Request} (h : r.opw = r'.opw) : Safety.Supported r ↔ Safety.Supported r' := by
  simp only [supported_iff_no_fault, ne_eq, eval_error_iff, h]

/-- A configured request whose index is below its bank count has its result there too: BITWISE by its power of two, the
matrix hashes by their range. -/
theorem eval_lt_of_configured {r : Request} {v : HashedIndex} (hc : Safety.Configured r)
    (hidx : r.index.toNat < r.bankCount.toNat) (he : eval r = .ok v) : v.toNat < r.bankCount.toNat := by
  obtain ⟨-, hpower⟩ := hc
  by_cases hsel : r.sel = 1#2
  · cases (eval_bitwise_request hsel).symm.trans he
    exact bitwiseHash_lt_of_powerOfTwo (hpower hsel) r.highBits hidx
  · rcases eval_cases r with ⟨i, hd, he'⟩ | ⟨f, -, he'⟩
    · obtain ⟨n, hcount, hbits⟩ := exists_width_of_sel_ne_one hsel hd r.highBits r.index
      cases he'.symm.trans he
      rw [hcount]
      exact Nat.lt_pow_two_of_testBit _ hbits
    · cases he'.symm.trans he

/-- Settles O15: a step completes with what the request evaluates to, and the supported requests are those that evaluate to
a result. -/
theorem supportedPairsComplete : Obligations.SupportedPairsComplete := by
  intro s r rest hr
  simp only [step_eq_evaluated_iff hr]
  refine ⟨supported_iff_eval_ok r, fun hc hidx => ?_⟩
  obtain ⟨v, he⟩ := (supported_iff_eval_ok r).mp hc.1
  exact ⟨v, he, eval_lt_of_configured hc hidx he⟩

/-! The observation of a list of requests. -/

theorem observe_cons_ok {r : Request} {v : HashedIndex} (he : eval r = .ok v) (rest : List Request) :
    observe (r :: rest) = (v :: (observe rest).1, (observe rest).2) := by
  rw [observe, he]

theorem observe_cons_error {r : Request} {f : Fault} (he : eval r = .error f) (rest : List Request) :
    observe (r :: rest) = ([], some f) := by
  rw [observe, he]

/-- A run raises no fault exactly when all its requests are supported. -/
theorem observe_fault_eq_none_iff (rs : List Request) : (observe rs).2 = none ↔ ∀ r ∈ rs, Safety.Supported r := by
  induction rs with
  | nil => simp [observe]
  | cons r rest ih =>
    rw [List.forall_mem_cons, supported_iff_eval_ok]
    cases he : eval r with
    | ok v => simp [observe_cons_ok he, ih]
    | error f => simp [observe_cons_error he]

/-- Without a fault every request is observed. -/
theorem length_observe_of_no_fault {rs : List Request} (h : (observe rs).2 = none) :
    (observe rs).1.length = rs.length := by
  induction rs with
  | nil => rfl
  | cons r rest ih =>
    cases he : eval r with
    | ok v =>
      rw [observe_cons_ok he] at h ⊢
      exact congrArg (· + 1) (ih h)
    | error f =>
      rw [observe_cons_error he] at h
      cases h

/-- Settles O16: the requests of one operation word are all supported or all not, as the first is. -/
theorem constantConfigurationFaultsFirstOrNever : Obligations.ConstantConfigurationFaultsFirstOrNever := by
  intro rs hconst
  by_cases hall : ∀ r ∈ rs, Safety.Supported r
  · have hnone := (observe_fault_eq_none_iff rs).mpr hall
    exact .inl ⟨hall, hnone, length_observe_of_no_fault hnone⟩
  · cases rs with
    | nil => simp at hall
    | cons r rest =>
      have hr : ¬ Safety.Supported r := fun h => hall fun r' hr' =>
        (supported_congr (hconst r List.mem_cons_self r' hr')).mp h
      obtain ⟨f, he⟩ := exists_fault_of_not_supported hr
      exact .inr ⟨r, rest, f, rfl, hr, observe_cons_error he rest⟩

/-! A run of the machine. -/

theorem run_succ_of_step (M : Host.Core) {s t : M.State} (h : M.step s = .next t) (k : Nat) :
    M.run (k + 1) s = M.run k t := by
  simp only [Host.Core.run, h]

/-- An unmarked run makes one step per evaluation, observes the results up to the first fault, and is left with that
fault or with no request. -/
theorem run_observe (rs : List Request) (s : State) (hmark : s.faultMark = none) (hpending : s.pending = rs) :
    ∃ t : State, Sys2Proof.core.run ((observe rs).1.length + (observe rs).2.toList.length) s = .next t ∧
      t.trace = s.trace ++ (observe rs).1 ∧ t.faultMark = (observe rs).2 ∧ (t.faultMark = none → t.EndedSuccessfully) := by
  induction rs generalizing s with
  | nil => exact ⟨s, rfl, (List.append_nil _).symm, hmark, fun h => ⟨hpending, h⟩⟩
  | cons r rest ih =>
    obtain ⟨t₁, hstep, hinv, hreq, hrest, htrace⟩ := exists_step_inv ⟨hmark, hpending⟩
    have hmark₁ := hinv.mark
    rw [hreq] at hmark₁
    cases he : eval r with
    | ok v =>
      rw [he] at hmark₁ htrace
      obtain ⟨t, hrun, htr, hm, hend⟩ := ih t₁ hmark₁ hrest
      rw [observe_cons_ok he]
      refine ⟨t, ?_, ?_, hm, hend⟩
      · rw [List.length_cons, Nat.add_right_comm]
        exact (run_succ_of_step Sys2Proof.core hstep _).trans hrun
      · rw [htr, htrace, List.append_assoc]
        rfl
    | error f =>
      rw [he] at hmark₁ htrace
      rw [observe_cons_error he]
      refine ⟨t₁, run_succ_of_step Sys2Proof.core hstep 0, htrace, hmark₁, fun h => ?_⟩
      cases hmark₁.symm.trans h

/-- Settles O22: the run reaches the end that its observation names, and there it stays or stops. -/
theorem runEndsWithItsObservation : Obligations.RunEndsWithItsObservation := by
  intro s hmark
  obtain ⟨t, hrun, htrace, hm, hend⟩ := run_observe s.pending s hmark rfl
  refine ⟨t, hrun, htrace, hm, fun hnone => ?_, fun _ => step_of_marked⟩
  exact ⟨hend hnone, length_observe_of_no_fault (hm.symm.trans hnone), step_of_endedSuccessfully (hend hnone)⟩

/-! Reordered runs. -/

/-- The pair of a request and its result, if it has one. -/
def requestAndValue (r : Request) : Option (Request × HashedIndex) :=
  (resultOf (eval r)).map (r, ·)

/-- Without a fault each request is observed with its own result, whatever stands before it. -/
theorem zip_observe_of_no_fault {rs : List Request} (h : (observe rs).2 = none) :
    rs.zip (observe rs).1 = rs.filterMap requestAndValue := by
  induction rs with
  | nil => rfl
  | cons r rest ih =>
    cases he : eval r with
    | ok v =>
      have hpair : requestAndValue r = some (r, v) := by rw [requestAndValue, he]; rfl
      rw [observe_cons_ok he] at h ⊢
      rw [List.zip_cons_cons, List.filterMap_cons_some hpair, ih h]
    | error f =>
      rw [observe_cons_error he] at h
      cases h

theorem run_of_no_fault {s : State} (hmark : s.faultMark = none) (hnone : (observe s.pending).2 = none) :
    ∃ t : State, Sys2Proof.core.run s.pending.length s = .next t ∧ t.trace = s.trace ++ (observe s.pending).1 ∧
      t.EndedSuccessfully := by
  obtain ⟨t, hrun, htrace, hm, hend⟩ := run_observe s.pending s hmark rfl
  rw [length_observe_of_no_fault hnone, hnone] at hrun
  exact ⟨t, hrun, htrace, hend (hm.trans hnone)⟩

/-- Settles O23: each run observes its requests with their own results, and those pairs are permuted with the requests. -/
theorem reorderedRunsObserveTheSameValues : Obligations.ReorderedRunsObserveTheSameValues := by
  intro s s' hmark hmark' hperm hnone
  have hnone' : (observe s'.pending).2 = none :=
    (observe_fault_eq_none_iff _).mpr fun r hr => (observe_fault_eq_none_iff _).mp hnone r (hperm.mem_iff.mpr hr)
  obtain ⟨t, hrun, htrace, hend⟩ := run_of_no_fault hmark hnone
  obtain ⟨t', hrun', htrace', hend'⟩ := run_of_no_fault hmark' hnone'
  refine ⟨t, t', _, _, hrun, hrun', htrace, htrace', ?_, hend, hend'⟩
  rw [zip_observe_of_no_fault hnone, zip_observe_of_no_fault hnone']
  exact hperm.filterMap requestAndValue

end Sys2Proof.Proofs
